-- ==== Sys2Proof/Word.lean ====
section
/-! DEFINITION. The word types of FPENC: bit strings and the port-sized bit vectors. -/

namespace Sys2Proof

/-- A byte, as a platform wrapper stores it (00_scope.md rule R8). -/
abbrev Byte := BitVec 8

/-- A bit string, leftmost character first, `true` for `'1'` (00_scope.md §4). -/
abbrev BitStr := List Bool

end Sys2Proof
end

