-- ==== Sys2Proof/Config.lean ====
section
/-! DEFINITION. What an instance of FPENC fixes (port widths, wrapper byte order), the four precision classes, and the
free values the spec leaves open. -/

namespace Sys2Proof

/-- The open port widths `COEFF_W` and `EXP_W` of 00_scope.md rule R8, taken as an argument where a request is looked at
as port bits. The values held in the machine are unbounded (decision D3, log entry 5). -/
structure PortWidths where
  coeffW : Nat
  expW   : Nat
deriving DecidableEq, Repr

/-- `BYTE_ORDER_WRAPPER` of 00_scope.md rule R8. DESIGN CHOICE: the two customary orders (log entry 9). -/
inductive ByteOrder where
  | little
  | big
deriving DecidableEq, Repr

/-- The four precision classes of 00_scope.md rule R6. -/
inductive PrecClass where
  | p16
  | p32
  | p64
  | p80
deriving DecidableEq, Repr

/-- The constants one precision class selects (00_scope.md rule R6, 41_encoder.md rule R91). -/
structure ClassConst where
  bias        : Nat
  expWidth    : Nat
  fracWidth   : Nat
  explicitInt : Bool
deriving DecidableEq, Repr

/-! The capture registers become unspecified at a reset edge (70_reset_and_hazards.md rule R151, 93 S1): free values,
one per reset edge, never fixed by the model (log entry 3). -/

/-- FREE VALUE: `REQ_PREC` after the reset edge number `n`. -/
opaque Config.freePrec : Nat → BitVec 8

/-- FREE VALUE: `REQ_SIGN` after the reset edge number `n`. -/
opaque Config.freeSign : Nat → Bool

/-- FREE VALUE: `REQ_COEFF` after the reset edge number `n`. -/
opaque Config.freeCoeff : Nat → Nat

/-- FREE VALUE: `REQ_EXP` after the reset edge number `n`. -/
opaque Config.freeExp : Nat → Int

end Sys2Proof
end

