-- ==== Sys2Proof/Syntax.lean ====
section
/-! DEFINITION. The requests FPENC can be given: the instruction type (one constructor per row of the opcode table), a
request as values, and a request as the bits on its ports. -/

namespace Sys2Proof

/-- One constructor per row of spec/opcode_table.json. Each carries the operands of 30_encoding.md rule R57: `sign`
(`true` = negative), the coefficient `C` and the decimal exponent `q`, so that the input is `(-1)^sign * C * 10^q`. -/
inductive Instr where
  /-- `ENC.H`, half precision (41_encoder.md rule R110). -/
  | encH (sign : Bool) (coeff : Nat) (exp : Int)
  /-- `ENC.S`, single precision (rule R111). -/
  | encS (sign : Bool) (coeff : Nat) (exp : Int)
  /-- `ENC.D`, double precision (rule R112). -/
  | encD (sign : Bool) (coeff : Nat) (exp : Int)
  /-- `ENC.X`, 80-bit extended precision (rule R113). -/
  | encX (sign : Bool) (coeff : Nat) (exp : Int)
deriving DecidableEq, Repr

/-- A request as values (30_encoding.md rule R55): any precision code, legal or not, and the operands of rule R57. -/
structure Request where
  prec  : BitVec 8
  sign  : Bool
  coeff : Nat
  exp   : Int
deriving DecidableEq, Repr

/-- A request as the bits on the request ports of an FPENC whose ports have the widths `w` (30_encoding.md rule R55). -/
structure RequestBits (w : PortWidths) where
  prec  : BitVec 8
  sign  : BitVec 1
  coeff : BitVec w.coeffW
  exp   : BitVec w.expW
deriving DecidableEq, Repr

end Sys2Proof
end

