-- ==== Sys2Proof/WellFormed.lean ====
section
/-! DEFINITION. Which requests the ports of a given FPENC can present (00_scope.md rule R8, 93 S5). -/

namespace Sys2Proof

/-- `C` fits `req_coeff`, an unsigned port of `COEFF_W` bits. -/
def coeffFits (w : PortWidths) (c : Nat) : Bool :=
  decide (c < 2 ^ w.coeffW)

/-- `q` fits `req_exp`, a two's-complement port of `EXP_W` bits: `-2^(EXP_W-1) ≤ q < 2^(EXP_W-1)`, both sides doubled so
that a width of 0 needs no case of its own. -/
def expFits (w : PortWidths) (q : Int) : Bool :=
  decide (-(2 ^ w.expW : Int) ≤ 2 * q) && decide (2 * q < (2 ^ w.expW : Int))

/-- The request can be presented on ports of the widths `w`. -/
def Request.fits (w : PortWidths) (r : Request) : Bool :=
  coeffFits w r.coeff && expFits w r.exp

/-- The instruction's operands can be presented on ports of the widths `w`. The operand fields take any value in every
row (30_encoding.md rule R58), so the port widths are the only limit. -/
def Instr.wf (w : PortWidths) : Instr → Bool
  | .encH _ c q => coeffFits w c && expFits w q
  | .encS _ c q => coeffFits w c && expFits w q
  | .encD _ c q => coeffFits w c && expFits w q
  | .encX _ c q => coeffFits w c && expFits w q

end Sys2Proof
end

