-- ==== Sys2Proof/Decode.lean ====
section
/-! DEFINITION. Decoding: port bits to a request, a request to an instruction or an illegal precision code, rejected by
name. After it the encoder, from the same table (30_encoding.md rules R55 to R59). -/

namespace Sys2Proof

/-- Why a request is no instruction of the opcode table. -/
inductive DecodeError where
  /-- The precision code is none of 0x10, 0x20, 0x40, 0x50 (30_encoding.md rules R56, R59). The step does not stop on it:
  such a request completes with `CFG_ERR`. -/
  | illegalPrecision (prec : BitVec 8)
deriving DecidableEq, Repr

/-- The operand assembly of 30_encoding.md rule R57: `sign` and `C` are read as unsigned, `q` as two's complement. -/
def assembleRequest (w : PortWidths) (b : RequestBits w) : Request :=
  { prec := b.prec, sign := decide (b.sign = 1#1), coeff := b.coeff.toNat, exp := b.exp.toInt }

/-- The operation map of 30_encoding.md rule R58: all 8 bits of `prec` are matched, the operands take any value. -/
def decodeRequest (r : Request) : Except DecodeError Instr :=
  if r.prec = 0x10#8 then .ok (.encH r.sign r.coeff r.exp)
  else if r.prec = 0x20#8 then .ok (.encS r.sign r.coeff r.exp)
  else if r.prec = 0x40#8 then .ok (.encD r.sign r.coeff r.exp)
  else if r.prec = 0x50#8 then .ok (.encX r.sign r.coeff r.exp)
  else .error (.illegalPrecision r.prec)

/-- The decoder, total on every pattern of port bits. -/
def decode (w : PortWidths) (b : RequestBits w) : Except DecodeError Instr :=
  decodeRequest (assembleRequest w b)

/-- The request an instruction stands for (the `prec` column of 30_encoding.md rule R58). -/
def encodeRequest : Instr → Request
  | .encH s c q => { prec := 0x10#8, sign := s, coeff := c, exp := q }
  | .encS s c q => { prec := 0x20#8, sign := s, coeff := c, exp := q }
  | .encD s c q => { prec := 0x40#8, sign := s, coeff := c, exp := q }
  | .encX s c q => { prec := 0x50#8, sign := s, coeff := c, exp := q }

/-- The port bits that present a request (the inverse of rule R57's assembly where the operands fit). -/
def requestBits (w : PortWidths) (r : Request) : RequestBits w :=
  { prec := r.prec
    sign := if r.sign then 1#1 else 0#1
    coeff := BitVec.ofNat w.coeffW r.coeff
    exp := BitVec.ofInt w.expW r.exp }

/-- The encoder: the port bits of an instruction, exact when it is well formed for the widths `w`. -/
def encode (w : PortWidths) (i : Instr) : RequestBits w :=
  requestBits w (encodeRequest i)

/-- The port bits of a word numbered as spec/opcode_table.json numbers it: bits 7..0 are `req_prec`. The table gives the
operands no bits, so every operand bit is 0 (log entry 7). -/
def tableBits (w : PortWidths) (nbits word : Nat) : RequestBits w :=
  { prec := BitVec.ofNat 8 (word % 2 ^ nbits), sign := 0#1, coeff := 0#w.coeffW, exp := 0#w.expW }

/-- Port widths at which a table word is looked at. DESIGN CHOICE without effect: operand ports that carry only zeros
decode to the same values at every width (`decode_tableBits` in Laws/Decode.lean; log entry 7). -/
def tableWidths : PortWidths :=
  { coeffW := 64, expW := 16 }

/-- What the decoder reads from a table word; none for an illegal precision code, and none for a word with a bit above
the eight the table numbers. -/
def decodeTableWord (nbits w : Nat) : Option Instr :=
  if w % 2 ^ nbits < 256 then
    match decode tableWidths (tableBits tableWidths nbits w) with
    | .ok i => some i
    | .error _ => none
  else none

end Sys2Proof
end

