-- ==== Sys2Proof/Machine/State.lean ====
section
/-! DEFINITION. The state of FPENC as plain data, the state after reset, and the reasons a run can stop. -/

namespace Sys2Proof.Machine

/-- The controller register `STATE` (10_state.md rule R23): 0 = `IDLE`, 1 = `BUSY`. -/
inductive Ctrl where
  | idle
  | busy
deriving DecidableEq, Repr

/-- The four error statuses that ENCODE can raise (60_exceptions.md rule R126). -/
inductive ErrorClass where
  | cfgErr
  | valErr
  | rangeOvf
  | rangeUnf
deriving DecidableEq, Repr

/-- What the outside drives at one rising edge of `clk`: the input ports of 10_state.md rule R22 and the draw `done` of
70_reset_and_hazards.md rule R155, which counts only when the block is `BUSY`. -/
structure EdgeInput where
  rst      : Bool
  reqValid : Bool
  req      : Request
  done     : Bool
deriving DecidableEq, Repr

/-- The contents of the result registers that describe a response (30_encoding.md rule R62). -/
structure Response where
  status : BitVec 3
  len    : BitVec 7
  bits   : BitVec 80
deriving DecidableEq, Repr

/-- The output ports of 10_state.md rule R22. -/
structure OutputPorts where
  reqReady  : Bool
  rspValid  : Bool
  rspStatus : BitVec 3
  rspLen    : BitVec 7
  rspBits   : BitVec 80
deriving DecidableEq, Repr

/-- The state of one FPENC: the registers of 10_state.md §3 and three fields of the model's own. -/
structure State where
  /-- `STATE` (rule R23). -/
  ctrl      : Ctrl
  /-- `REQ_PREC` (rule R24). -/
  reqPrec   : BitVec 8
  /-- `REQ_SIGN` (rule R24). -/
  reqSign   : Bool
  /-- `REQ_COEFF` (rule R24), unbounded (00_scope.md rule R8, log entry 5). -/
  reqCoeff  : Nat
  /-- `REQ_EXP` (rule R24), unbounded (00_scope.md rule R8, log entry 5). -/
  reqExp    : Int
  /-- `RSP_VALID` (rule R25). -/
  rspValid  : Bool
  /-- `RSP_STATUS` (rule R26). -/
  rspStatus : BitVec 3
  /-- `RSP_LEN` (rule R27). -/
  rspLen    : BitVec 7
  /-- `RSP_BITS` (rule R28). -/
  rspBits   : BitVec 80
  /-- The model's own: has an edge with `rst = 1` been seen (70_reset_and_hazards.md rule R154, log entry 4). -/
  resetSeen : Bool
  /-- The model's own: what the outside drives at the coming edges, the next one first (log entry 1). -/
  inputs    : List EdgeInput
  /-- The model's own: how many reset edges have drawn free values for the capture registers (log entry 3). -/
  draws     : Nat
deriving DecidableEq, Repr

/-- The machine right after reset (10_state.md rule R35). The capture registers are unspecified there: DESIGN CHOICE 0
(log entry 2). No input is scripted (log entry 1). -/
def State.reset : State :=
  { ctrl := .idle
    reqPrec := 0#8
    reqSign := false
    reqCoeff := 0
    reqExp := 0
    rspValid := false
    rspStatus := 0#3
    rspLen := 0#7
    rspBits := 0#80
    resetSeen := true
    inputs := []
    draws := 0 }

/-- Reasons the machine stops with a fault. -/
inductive Fault where
  /-- A response shows the reserved status code 5, 6 or 7 (93_implementation_defined.md S6). Raised by `readResponse` on
  the response of an implementation under test, by no step. Safe. -/
  | reservedStatus (code : BitVec 3)
deriving DecidableEq, Repr

/-- Reasons the model gives no meaning. -/
inductive Refusal where
  /-- An instruction whose meaning is not written; no arm of `exec` answers it. Safe. -/
  | notModelled (mnemonic : String)
  /-- A request is presented before the first reset edge (93_implementation_defined.md S3: "refuse"). Raised by `step`
  alone. Safe. -/
  | requestBeforeFirstReset
deriving DecidableEq, Repr

end Sys2Proof.Machine
end

