-- ==== Sys2Proof/Machine/Operands.lean ====
section
/-! DEFINITION. Operand forms: the bit-string primitives of 00_scope.md §4, the class constants, and the split of the
decimal magnitude into integer and fraction. -/

namespace Sys2Proof.Machine

/-- `zeros(n)` (00_scope.md §4). -/
def zeros (n : Nat) : BitStr :=
  List.replicate n false

/-- `rpad(s, n)`: truncated or padded with `'0'` on the right to exactly `n` characters (00_scope.md §4). -/
def rpad (s : BitStr) (n : Nat) : BitStr :=
  (s ++ zeros n).take n

/-- `lpad(s, n)`: padded with `'0'` on the left to `n` characters (00_scope.md §4). -/
def lpad (s : BitStr) (n : Nat) : BitStr :=
  zeros (n - s.length) ++ s

/-- `find1(s)`: the 0-based index of the leftmost `'1'` (00_scope.md §4). -/
def find1 : BitStr → Option Nat
  | [] => none
  | true :: _ => some 0
  | false :: s => (find1 s).map (· + 1)

/-- The number a bit string denotes as a binary numeral, most significant digit first, continued from `acc`. -/
def strValueFrom (acc : Nat) : BitStr → Nat
  | [] => acc
  | b :: s => strValueFrom (2 * acc + b.toNat) s

/-- The number a bit string denotes as a binary numeral (20_memory.md rule R42). -/
def strValue (s : BitStr) : Nat :=
  strValueFrom 0 s

/-- `vec(s)`, zero-extended to the 80 bits of `RSP_BITS`: the first character is the most significant bit
(00_scope.md §4, 20_memory.md rule R42). -/
def vec80 (s : BitStr) : BitVec 80 :=
  BitVec.ofNat 80 (strValue s)

/-- The bit length `k` of `n`: `2^(k-1) ≤ n < 2^k`, and 0 for 0 (40_converters.md rule R77). -/
def bitLength (n : Nat) : Nat :=
  if n = 0 then 0 else Nat.log2 n + 1

/-- The constants of 00_scope.md rule R6, `CONST` of 41_encoder.md rule R91. The fraction width of the 80-bit class is 63
(90_conflicts.md C1). -/
def classConst : PrecClass → ClassConst
  | .p16 => { bias := 15, expWidth := 5, fracWidth := 10, explicitInt := false }
  | .p32 => { bias := 127, expWidth := 8, fracWidth := 23, explicitInt := false }
  | .p64 => { bias := 1023, expWidth := 11, fracWidth := 52, explicitInt := false }
  | .p80 => { bias := 16383, expWidth := 15, fracWidth := 63, explicitInt := true }

/-- The output width `p` of a class (00_scope.md rule R6). -/
def classWidth : PrecClass → Nat
  | .p16 => 16
  | .p32 => 32
  | .p64 => 64
  | .p80 => 80

/-- `N = W_F + 1`, the number of fraction digits generated (40_converters.md rule R80). -/
def fracDigits (p : PrecClass) : Nat :=
  (classConst p).fracWidth + 1

/-- The class a precision code selects; none for the 252 illegal codes (30_encoding.md rule R56). -/
def precClass (prec : BitVec 8) : Option PrecClass :=
  if prec = 0x10#8 then some .p16
  else if prec = 0x20#8 then some .p32
  else if prec = 0x40#8 then some .p64
  else if prec = 0x50#8 then some .p80
  else none

/-- Numerator of the magnitude `C * 10^q`: the power of ten is here when `q ≥ 0` (41_encoder.md rule R94). -/
def magNum (c : Nat) (q : Int) : Nat :=
  c * 10 ^ q.toNat

/-- Denominator `D` of the magnitude: `10^(-q)` when `q < 0`, else 1 (41_encoder.md rule R94). -/
def magDen (q : Int) : Nat :=
  10 ^ (-q).toNat

/-- Integer part `I` of the magnitude (41_encoder.md rule R94). -/
def magInt (c : Nat) (q : Int) : Nat :=
  if 0 ≤ q then c * 10 ^ q.toNat else c / 10 ^ (-q).toNat

/-- Numerator `F` of the fractional part over `magDen q` (41_encoder.md rule R94). -/
def magFrac (c : Nat) (q : Int) : Nat :=
  if 0 ≤ q then 0 else c % 10 ^ (-q).toNat

end Sys2Proof.Machine
end

