-- ==== Sys2Proof/Machine/Converters.lean ====
section
/-! DEFINITION. The Radix converter and the Fractional-to-binary converter (40_converters.md), exact on naturals. -/

namespace Sys2Proof.Machine

/-- At most `fuel` binary digits of `n`, taken off at the low end and put in front of `acc`; no leading zero. -/
def radixLoop : Nat → Nat → BitStr → BitStr
  | 0, _, acc => acc
  | fuel + 1, n, acc => if n = 0 then acc else radixLoop fuel (n / 2) (decide (n % 2 = 1) :: acc)

/-- `RADIX(n)`, which is `bin(n)`: the binary digits of `n`, most significant first, none for 0
(40_converters.md rules R75 to R77). -/
def radix (n : Nat) : BitStr :=
  radixLoop (bitLength n) n []

/-- The loop of 40_converters.md rule R78 with remainder `r` over `den`: one digit for each of `n` iterations. -/
def fracLoop (den : Nat) : Nat → Nat → BitStr
  | 0, _ => []
  | n + 1, r => if den ≤ 2 * r then true :: fracLoop den n (2 * r - den) else false :: fracLoop den n (2 * r)

/-- `FRAC(F, D, N)`: exactly `N` digits of `F / D` by multiply-and-extract (40_converters.md rules R78, R79). -/
def frac (num den n : Nat) : BitStr :=
  fracLoop den n num

end Sys2Proof.Machine
end

