-- ==== Sys2Proof/Machine/Encoder.lean ====
section
/-! DEFINITION. The Encoder pipeline: stages S1 to S7 of 41_encoder.md and the whole function ENCODE. -/

namespace Sys2Proof.Machine

/-- S2, the sign character (41_encoder.md rule R93). -/
def signStr (sign : Bool) : BitStr :=
  [sign]

/-- S4, where the binary point is: the unbiased exponent `e` and the mantissa bits `MB`, from the integer part, its digits
`ib` and the fraction digits `fb` (41_encoder.md rules R96, R97). `RANGE_UNF` where the integer part is 0 and no fraction
digit is `'1'`. -/
def locatePoint (int : Nat) (ib fb : BitStr) : Except ErrorClass (Int × BitStr) :=
  if 0 < int then
    .ok ((ib.length : Int) - 1, ib.drop 1 ++ fb)
  else
    match find1 fb with
    | none => .error .rangeUnf
    | some j => .ok (-((j : Int) + 1), fb.drop (j + 1))

/-- S5, the biased exponent `E = e + B` and its range check (41_encoder.md rule R98). -/
def biasedExponent (k : ClassConst) (e : Int) : Except ErrorClass Nat :=
  if e + k.bias < 0 then .error .rangeUnf
  else if e + k.bias > 2 ^ k.expWidth - 1 then .error .rangeOvf
  else .ok (e + k.bias).toNat

/-- S5, the exponent field (41_encoder.md rule R99). -/
def expField (k : ClassConst) (biased : Nat) : BitStr :=
  lpad (radix biased) k.expWidth

/-- S6, truncation to `W_F + 1` bits and the guard-bit rule: the last retained bit is overwritten by the guard bit, no
carry is added (41_encoder.md rule R100, 90_conflicts.md C5). -/
def roundGuard (fracWidth : Nat) (mb : BitStr) : BitStr :=
  let m := rpad mb (fracWidth + 1)
  m.take (fracWidth - 1) ++ [m.getD fracWidth false]

/-- The explicit integer bit of the 80-bit class, absent in the others (41_encoder.md rules R101, R102). -/
def intBitStr (k : ClassConst) (biased : Nat) : BitStr :=
  if k.explicitInt then [decide (biased ≠ 0)] else []

/-- S7, assembly: sign, exponent field, integer bit if the class has one, fraction field
(41_encoder.md rules R101, R102). -/
def assembleOutput (k : ClassConst) (sign : Bool) (biased : Nat) (fr : BitStr) : BitStr :=
  signStr sign ++ expField k biased ++ intBitStr k biased ++ fr

/-- S4 to S7 for one class, from the integer part and the two digit strings. -/
def encodeDigits (k : ClassConst) (sign : Bool) (int : Nat) (ib fb : BitStr) : Except ErrorClass BitStr :=
  match locatePoint int ib fb with
  | .error x => .error x
  | .ok (e, mb) =>
    match biasedExponent k e with
    | .error x => .error x
    | .ok biased => .ok (assembleOutput k sign biased (roundGuard k.fracWidth mb))

/-- ENCODE for a legal precision: zero check, split, conversion, then S4 to S7 (41_encoder.md rules R92 to R102). -/
def encodeClass (p : PrecClass) (sign : Bool) (c : Nat) (q : Int) : Except ErrorClass BitStr :=
  if c = 0 then .error .valErr
  else
    encodeDigits (classConst p) sign (magInt c q) (radix (magInt c q))
      (frac (magFrac c q) (magDen q) (fracDigits p))

/-- `ENCODE(prec, sign, C, q)`, the whole function (41_encoder.md rule R103): the precision check of rule R91 first. -/
def encodeFn (prec : BitVec 8) (sign : Bool) (c : Nat) (q : Int) : Except ErrorClass BitStr :=
  match precClass prec with
  | none => .error .cfgErr
  | some p => encodeClass p sign c q

end Sys2Proof.Machine
end

