-- ==== Sys2Proof/Machine/Flags.lean ====
section
/-! DEFINITION. `RSP_STATUS`, the only flag FPENC has (10_state.md rule R31): its codes, and the response that an outcome of
ENCODE stands for. -/

namespace Sys2Proof.Machine

/-- The status code of an error class (60_exceptions.md rule R126). -/
def errorCode : ErrorClass → BitVec 3
  | .cfgErr => 1#3
  | .valErr => 2#3
  | .rangeOvf => 3#3
  | .rangeUnf => 4#3

/-- The status code of a completion without error (60_exceptions.md rule R126). -/
def okCode : BitVec 3 :=
  0#3

/-- The response of an error: the code, and no output bits (60_exceptions.md rule R131). -/
def errorResponse (x : ErrorClass) : Response :=
  { status := errorCode x, len := 0#7, bits := 0#80 }

/-- The response of a completion with output string `s` at precision `p` (60_exceptions.md rule R131). -/
def okResponse (prec : BitVec 8) (s : BitStr) : Response :=
  { status := okCode, len := BitVec.ofNat 7 prec.toNat, bits := vec80 s }

/-- The response to an outcome of ENCODE at the precision code `prec` (10_state.md rules R26 to R28). -/
def responseOf (prec : BitVec 8) (r : Except ErrorClass BitStr) : Response :=
  match r with
  | .error x => errorResponse x
  | .ok s => okResponse prec s

/-- The cleared result registers: what the response ports read while `RSP_VALID = 0` (10_state.md rule R33). -/
def clearedResponse : Response :=
  { status := 0#3, len := 0#7, bits := 0#80 }

/-- An observer's reading of output ports: no response while `rsp_valid = 0` (10_state.md rule R26), the response while it
is 1, and a fault on a reserved status code, which the implementation observed must not produce
(93_implementation_defined.md S6). -/
def readResponse (o : OutputPorts) : Except Fault (Option Response) :=
  if o.rspValid then
    if o.rspStatus.toNat ≤ 4 then .ok (some { status := o.rspStatus, len := o.rspLen, bits := o.rspBits })
    else .error (.reservedStatus o.rspStatus)
  else .ok none

/-- The `n` bytes of a response value, least significant byte first. -/
def bytesLittle (bits : BitVec 80) : Nat → List Byte
  | 0 => []
  | n + 1 => bits.setWidth 8 :: bytesLittle (bits >>> 8) n

/-- The bytes a platform wrapper stores for a response of `len` bits, in its byte order `BYTE_ORDER_WRAPPER`
(00_scope.md rule R8, 20_memory.md rule R42). Outside the block (log entry 9). -/
def wrapperBytes (order : ByteOrder) (r : Response) : List Byte :=
  match order with
  | .little => bytesLittle r.bits (r.len.toNat / 8)
  | .big => (bytesLittle r.bits (r.len.toNat / 8)).reverse

end Sys2Proof.Machine
end

