-- ==== Sys2Proof/Machine/Ops.lean ====
section
/-! DEFINITION. The named operations over the ports and registers: sampling an edge, acceptance, reset, and completion with
and without error (10_state.md, 60_exceptions.md rule R131, 70_reset_and_hazards.md rules R151, R155). -/

namespace Sys2Proof.Machine

/-- What the ports carry where nothing is scripted: no reset, no request, and a `BUSY` block completes.
DESIGN CHOICE (log entry 1). -/
def quietEdge : EdgeInput :=
  { rst := false, reqValid := false, req := { prec := 0#8, sign := false, coeff := 0, exp := 0 }, done := true }

/-- The inputs sampled at the next rising edge. -/
def sampled (s : State) : EdgeInput :=
  s.inputs.headD quietEdge

/-- The state after an edge that changes no register: only the sampled input is behind. -/
def tick (s : State) : State :=
  { s with inputs := s.inputs.tail }

/-- The request in flight, as the capture registers hold it (10_state.md rule R24). -/
def captured (s : State) : Request :=
  { prec := s.reqPrec, sign := s.reqSign, coeff := s.reqCoeff, exp := s.reqExp }

/-- `req_ready`: 1 exactly when `STATE = IDLE` and `rst = 0` (10_state.md rule R29). -/
def reqReady (s : State) : Bool :=
  decide (s.ctrl = .idle) && !(sampled s).rst

/-- The output ports as they stand at the next rising edge (10_state.md rule R29). -/
def outputPorts (s : State) : OutputPorts :=
  { reqReady := reqReady s
    rspValid := s.rspValid
    rspStatus := s.rspStatus
    rspLen := s.rspLen
    rspBits := s.rspBits }

/-- All result registers are written together (20_memory.md rule R44). -/
def writeResponse (valid : Bool) (r : Response) (s : State) : State :=
  { s with rspValid := valid, rspStatus := r.status, rspLen := r.len, rspBits := r.bits }

/-- The capture registers are written together (10_state.md rule R24). -/
def writeCapture (r : Request) (s : State) : State :=
  { s with reqPrec := r.prec, reqSign := r.sign, reqCoeff := r.coeff, reqExp := r.exp }

/-- `STATE <- c` (10_state.md rule R23). -/
def setCtrl (c : Ctrl) (s : State) : State :=
  { s with ctrl := c }

/-- The registers at an accepting edge (70_reset_and_hazards.md rule R155, acceptance). -/
def acceptRequest (r : Request) (s : State) : State :=
  writeResponse false clearedResponse (setCtrl .busy (writeCapture r s))

/-- The unspecified request that a reset edge leaves in the capture registers: free values (log entry 3). -/
def freeRequest (n : Nat) : Request :=
  { prec := Config.freePrec n, sign := Config.freeSign n, coeff := Config.freeCoeff n, exp := Config.freeExp n }

/-- The registers at an edge with `rst = 1` (70_reset_and_hazards.md rule R151). -/
def resetRegisters (s : State) : State :=
  let t := writeResponse false clearedResponse (setCtrl .idle (writeCapture (freeRequest s.draws) s))
  { t with resetSeen := true, draws := s.draws + 1 }

/-- Completion with an error status: the one operation by which a request ends in an error, and the return to `IDLE`
(60_exceptions.md rules R131, R135). -/
def completeWithError (x : ErrorClass) (s : State) : State :=
  setCtrl .idle (writeResponse true (errorResponse x) s)

/-- Completion with `OK` and the output string `str` at the precision code `prec` (60_exceptions.md rule R131). -/
def completeWithOutput (prec : BitVec 8) (str : BitStr) (s : State) : State :=
  setCtrl .idle (writeResponse true (okResponse prec str) s)

/-- Completion with an outcome of ENCODE (60_exceptions.md rule R131). -/
def completeWith (prec : BitVec 8) (r : Except ErrorClass BitStr) (s : State) : State :=
  match r with
  | .error x => completeWithError x s
  | .ok str => completeWithOutput prec str s

/-- What a rising edge is, in the order of 70_reset_and_hazards.md rule R155. -/
inductive EdgeKind where
  | reset
  | unbooted
  | accept
  | complete
  | hold
deriving DecidableEq, Repr

/-- The choice of 70_reset_and_hazards.md rule R155, with the request before the first reset edge singled out
(rule R154, 93 S3, log entry 4). -/
def edgeKind (s : State) : EdgeKind :=
  if (sampled s).rst then .reset
  else if !s.resetSeen && (sampled s).reqValid then .unbooted
  else if decide (s.ctrl = .idle) && (sampled s).reqValid then .accept
  else if decide (s.ctrl = .busy) && (sampled s).done then .complete
  else .hold

/-- The next state at a reset edge. -/
def resetEdge (s : State) : State :=
  tick (resetRegisters s)

/-- The next state at an accepting edge: the live request fields are captured. -/
def acceptEdge (s : State) : State :=
  tick (acceptRequest (sampled s).req s)

/-- The next state when a request with an illegal precision code completes (30_encoding.md rule R59; 60_exceptions.md rule
R127). The operands are not looked at. -/
def completeIllegal (s : State) : State :=
  completeWithError .cfgErr s

/-- The instruction in flight, read from the capture registers: what this machine has for a fetch (log entry 6). -/
def instrInFlight (s : State) : Except DecodeError Instr :=
  decodeRequest (captured s)

/-- The state in which the request `r` has been accepted and completes at the very next edge (log entry 6). -/
def placeRequest (r : Request) (s : State) : State :=
  let t := acceptRequest r s
  { t with inputs := quietEdge :: s.inputs }

end Sys2Proof.Machine
end

