-- ==== Sys2Proof/Machine/Enc.lean ====
section
/-! DEFINITION. The meanings of ENC.H, ENC.S, ENC.D and ENC.X: what the completing edge of such a request does to the
registers (41_encoder.md rules R110 to R113). -/

namespace Sys2Proof.Machine

/-- `ENC.H` (41_encoder.md rule R110): `(status, s) <- ENCODE(16, sign, C, q)`, written by the completion. -/
def execEncH (sign : Bool) (coeff : Nat) (exp : Int) (s : State) : Host.Outcome State Fault Refusal :=
  .next (completeWith 0x10#8 (encodeFn 0x10#8 sign coeff exp) s)

/-- `ENC.S` (41_encoder.md rule R111): `(status, s) <- ENCODE(32, sign, C, q)`, written by the completion. -/
def execEncS (sign : Bool) (coeff : Nat) (exp : Int) (s : State) : Host.Outcome State Fault Refusal :=
  .next (completeWith 0x20#8 (encodeFn 0x20#8 sign coeff exp) s)

/-- `ENC.D` (41_encoder.md rule R112): `(status, s) <- ENCODE(64, sign, C, q)`, written by the completion. -/
def execEncD (sign : Bool) (coeff : Nat) (exp : Int) (s : State) : Host.Outcome State Fault Refusal :=
  .next (completeWith 0x40#8 (encodeFn 0x40#8 sign coeff exp) s)

/-- `ENC.X` (41_encoder.md rule R113): `(status, s) <- ENCODE(80, sign, C, q)`, written by the completion. -/
def execEncX (sign : Bool) (coeff : Nat) (exp : Int) (s : State) : Host.Outcome State Fault Refusal :=
  .next (completeWith 0x50#8 (encodeFn 0x50#8 sign coeff exp) s)

end Sys2Proof.Machine
end

