-- ==== Sys2Proof/Machine/Dispatch.lean ====
section
/-! DEFINITION. One arm per row of the opcode table. -/

namespace Sys2Proof.Machine

/-- The effect of the instruction `i` at its completing edge. -/
def exec (i : Instr) (s : State) : Host.Outcome State Fault Refusal :=
  match i with
  | .encH sign coeff exp => Sys2Proof.Machine.execEncH sign coeff exp s
  | .encS sign coeff exp => Sys2Proof.Machine.execEncS sign coeff exp s
  | .encD sign coeff exp => Sys2Proof.Machine.execEncD sign coeff exp s
  | .encX sign coeff exp => Sys2Proof.Machine.execEncX sign coeff exp s

end Sys2Proof.Machine
end

