-- ==== Sys2Proof/Machine/Step.lean ====
section
/-! DEFINITION. One step of the machine: one rising edge of `clk` (70_reset_and_hazards.md rule R155). -/

namespace Sys2Proof.Machine

/-- The completing edge: the instruction in flight runs; a request that is no instruction completes with `CFG_ERR`. -/
def completeEdge (s : State) : Host.Outcome State Fault Refusal :=
  match instrInFlight s with
  | .ok i => exec i (tick s)
  | .error _ => .next (completeIllegal (tick s))

/-- One rising edge of `clk`. -/
def step (s : State) : Host.Outcome State Fault Refusal :=
  match edgeKind s with
  | .reset => .next (resetEdge s)
  | .unbooted => .refused .requestBeforeFirstReset
  | .accept => .next (acceptEdge s)
  | .complete => completeEdge s
  | .hold => .next (tick s)

/-- The state whose very next step runs the instruction that a table word stands for: the request is in the capture
registers and the next edge completes it (log entry 6). -/
def State.withFetchWord (s : State) (nbits w : Nat) : State :=
  placeRequest (assembleRequest tableWidths (tableBits tableWidths nbits w)) s

end Sys2Proof.Machine
end

