-- ==== Sys2Proof/Machine/Assembler.lean ====
section
/-! DEFINITION. The assembler notation of 30_encoding.md §5: decimal literals, statements, their text form, and the host
action each stands for (rules R63 to R66). FPENC decodes none of it; it says what a requester puts on the ports. -/

namespace Sys2Proof.Machine

/-- A `<decimal>` literal by its parts (30_encoding.md rules R63, R64). -/
structure DecimalLit where
  negative   : Bool
  intDigits  : List (Fin 10)
  fracDigits : List (Fin 10)
  exponent   : Int
deriving DecidableEq, Repr

/-- The number that decimal digits denote, continued from `acc`. -/
def digitsValueFrom (acc : Nat) : List (Fin 10) → Nat
  | [] => acc
  | d :: ds => digitsValueFrom (10 * acc + d.val) ds

/-- The number that decimal digits denote; leading zeros do not count. -/
def digitsValue (ds : List (Fin 10)) : Nat :=
  digitsValueFrom 0 ds

/-- The request fields of a literal (30_encoding.md rule R64): the point is removed from the digits and counted in `q`. -/
def literalRequest (prec : BitVec 8) (l : DecimalLit) : Request :=
  { prec := prec
    sign := l.negative
    coeff := digitsValue (l.intDigits ++ l.fracDigits)
    exp := l.exponent - (l.fracDigits.length : Int) }

/-- A statement of the notation (30_encoding.md rules R63, R65, R66). -/
inductive AsmStmt where
  | encH (d : DecimalLit)
  | encS (d : DecimalLit)
  | encD (d : DecimalLit)
  | encX (d : DecimalLit)
  /-- `ENC <prec>, <decimal>`. -/
  | encCode (prec : BitVec 8) (d : DecimalLit)
  /-- `ENC <prec>, <sign>, <C>, <q>`. -/
  | encRaw (prec : BitVec 8) (sign : Bool) (c : Nat) (q : Int)
  /-- The pseudo-instruction `encode(v, p)`. -/
  | call (d : DecimalLit) (prec : BitVec 8)
  | rst (n : Nat)
  | idle (n : Nat)
  | waitRsp
  | check (status : BitVec 3) (bits : BitVec 80)
deriving DecidableEq, Repr

/-- A host action on the ports: present a request and hold it until accepted, or a directive of 30_encoding.md rule R66. -/
inductive HostStmt where
  | present (r : Request)
  | rst (n : Nat)
  | idle (n : Nat)
  | waitRsp
  | check (status : BitVec 3) (bits : BitVec 80)
deriving DecidableEq, Repr

/-- The host action of a statement (30_encoding.md rules R63 to R66). -/
def lowerStmt : AsmStmt → HostStmt
  | .encH d => .present (literalRequest 0x10#8 d)
  | .encS d => .present (literalRequest 0x20#8 d)
  | .encD d => .present (literalRequest 0x40#8 d)
  | .encX d => .present (literalRequest 0x50#8 d)
  | .encCode p d => .present (literalRequest p d)
  | .encRaw p sg c q => .present { prec := p, sign := sg, coeff := c, exp := q }
  | .call d p => .present (literalRequest p d)
  | .rst n => .rst n
  | .idle n => .idle n
  | .waitRsp => .waitRsp
  | .check st b => .check st b

/-! The text form (rule R63). Blanks, commas and parentheses separate words, `;` starts a comment: DESIGN CHOICE
(log entry 11). -/

/-- A decimal digit character. -/
def charDigit (c : Char) : Option (Fin 10) :=
  if 48 ≤ c.toNat ∧ c.toNat ≤ 57 then some (Fin.ofNat 10 (c.toNat - 48)) else none

/-- A hexadecimal digit character, of either case. -/
def charHex (c : Char) : Option Nat :=
  if 48 ≤ c.toNat ∧ c.toNat ≤ 57 then some (c.toNat - 48)
  else if 65 ≤ c.toNat ∧ c.toNat ≤ 70 then some (c.toNat - 55)
  else if 97 ≤ c.toNat ∧ c.toNat ≤ 102 then some (c.toNat - 87)
  else none

/-- The leading decimal digits of a text, and the rest. -/
def takeDigits : List Char → List (Fin 10) × List Char
  | [] => ([], [])
  | c :: cs =>
    match charDigit c with
    | none => ([], c :: cs)
    | some d => (d :: (takeDigits cs).1, (takeDigits cs).2)

/-- An optional sign: is it `-`, and the rest. -/
def takeSign : List Char → Bool × List Char
  | '-' :: cs => (true, cs)
  | '+' :: cs => (false, cs)
  | cs => (false, cs)

/-- `-n` or `n`. -/
def signedValue (negative : Bool) (n : Nat) : Int :=
  if negative then -(n : Int) else (n : Int)

/-- The optional exponent part `(e|E) [+|-] digits` at the end of a literal; 0 if absent. -/
def parseExponent (cs : List Char) : Option Int :=
  match cs with
  | [] => some 0
  | c :: rest =>
    if c = 'e' ∨ c = 'E' then
      let digits := takeDigits (takeSign rest).2
      if digits.1 ≠ [] ∧ digits.2 = [] then some (signedValue (takeSign rest).1 (digitsValue digits.1)) else none
    else none

/-- The `<decimal>` grammar of 30_encoding.md rule R63: the integer digits may be absent only before a point, and digits
follow a point. -/
def parseLiteral (text : List Char) : Option DecimalLit :=
  let whole := takeDigits (takeSign text).2
  match whole.2 with
  | '.' :: rest =>
    let part := takeDigits rest
    if part.1 = [] then none
    else (parseExponent part.2).map fun e =>
      { negative := (takeSign text).1, intDigits := whole.1, fracDigits := part.1, exponent := e }
  | rest =>
    if whole.1 = [] then none
    else (parseExponent rest).map fun e =>
      { negative := (takeSign text).1, intDigits := whole.1, fracDigits := [], exponent := e }

/-- All of a text as hexadecimal digits, continued from `acc`. -/
def parseHexFrom (acc : Nat) : List Char → Option Nat
  | [] => some acc
  | c :: cs =>
    match charHex c with
    | none => none
    | some d => parseHexFrom (16 * acc + d) cs

/-- A natural number, decimal or hexadecimal with the mark `0x` (30_encoding.md rule R63). DESIGN CHOICE: the mark is
written with a small `x`, and `RST` and `IDLE` take their count in either form (log entry 11). -/
def parseNat (text : List Char) : Option Nat :=
  match text with
  | '0' :: 'x' :: d :: ds => parseHexFrom 0 (d :: ds)
  | cs => if (takeDigits cs).1 ≠ [] ∧ (takeDigits cs).2 = [] then some (digitsValue (takeDigits cs).1) else none

/-- The `<hex bits>` of a `CHECK` (30_encoding.md rule R66), which the spec writes with the mark `0x` and, where they are 0,
without it. DESIGN CHOICE: without the mark the digits are hexadecimal too, so `10` is 0x10 (log entry 11). -/
def parseHexBits (text : List Char) : Option Nat :=
  match text with
  | '0' :: 'x' :: d :: ds => parseHexFrom 0 (d :: ds)
  | d :: ds => parseHexFrom 0 (d :: ds)
  | [] => none

/-- An integer, as `<q>` is written: a natural number with an optional sign (30_encoding.md rule R63). DESIGN CHOICE: the
spec does not say how a signed `<q>` is written; one `-` or `+` may stand before either form of the number, so `-0x10` is
-16 (log entry 11). -/
def parseInt (text : List Char) : Option Int :=
  (parseNat (takeSign text).2).map (signedValue (takeSign text).1)

/-- A precision code: an integer 0..255 (30_encoding.md rule R63). -/
def parsePrec (text : List Char) : Option (BitVec 8) :=
  match parseNat text with
  | some n => if n < 256 then some (BitVec.ofNat 8 n) else none
  | none => none

/-- A `<sign>` field: 0 or 1 (30_encoding.md rule R63). DESIGN CHOICE: the spec does not say how the numeral is written;
any natural number of value 0 or 1 is taken, `01` and `0x1` among them (log entry 11). -/
def parseSignField (text : List Char) : Option Bool :=
  match parseNat text with
  | some 0 => some false
  | some 1 => some true
  | _ => none

/-- A status name of 60_exceptions.md rule R126. -/
def parseStatus (text : List Char) : Option (BitVec 3) :=
  if text = ['O', 'K'] then some 0#3
  else if text = ['C', 'F', 'G', '_', 'E', 'R', 'R'] then some 1#3
  else if text = ['V', 'A', 'L', '_', 'E', 'R', 'R'] then some 2#3
  else if text = ['R', 'A', 'N', 'G', 'E', '_', 'O', 'V', 'F'] then some 3#3
  else if text = ['R', 'A', 'N', 'G', 'E', '_', 'U', 'N', 'F'] then some 4#3
  else none

/-- The words of a line; `word` holds the letters of the word being read, last one first. -/
def splitWords (word : List Char) : List Char → List (List Char)
  | [] => if word = [] then [] else [word.reverse]
  | c :: cs =>
    if c = ';' then (if word = [] then [] else [word.reverse])
    else if c = ' ' ∨ c = '\t' ∨ c = ',' ∨ c = '(' ∨ c = ')' then
      if word = [] then splitWords [] cs else word.reverse :: splitWords [] cs
    else splitWords (c :: word) cs

/-- A statement from its words; none where they are no statement of 30_encoding.md rules R63 to R66. DESIGN CHOICE: the
bits of a `CHECK` are read by `parseHexBits`, and bits that need more than 80 make the line no statement (log entry 11). -/
def parseWords (words : List (List Char)) : Option AsmStmt :=
  match words with
  | [m] => if m = ['W', 'A', 'I', 'T', 'R', 'S', 'P'] then some .waitRsp else none
  | [m, a] =>
    if m = ['E', 'N', 'C', '.', 'H'] then (parseLiteral a).map .encH
    else if m = ['E', 'N', 'C', '.', 'S'] then (parseLiteral a).map .encS
    else if m = ['E', 'N', 'C', '.', 'D'] then (parseLiteral a).map .encD
    else if m = ['E', 'N', 'C', '.', 'X'] then (parseLiteral a).map .encX
    else if m = ['R', 'S', 'T'] then (parseNat a).map .rst
    else if m = ['I', 'D', 'L', 'E'] then (parseNat a).map .idle
    else none
  | [m, a, b] =>
    if m = ['E', 'N', 'C'] then
      match parsePrec a, parseLiteral b with
      | some p, some d => some (.encCode p d)
      | _, _ => none
    else if m = ['e', 'n', 'c', 'o', 'd', 'e'] then
      match parseLiteral a, parsePrec b with
      | some d, some p => some (.call d p)
      | _, _ => none
    else if m = ['C', 'H', 'E', 'C', 'K'] then
      match parseStatus a, parseHexBits b with
      | some st, some n => if n < 2 ^ 80 then some (.check st (BitVec.ofNat 80 n)) else none
      | _, _ => none
    else none
  | [m, a, b, c, d] =>
    if m = ['E', 'N', 'C'] then
      match parsePrec a, parseSignField b, parseNat c, parseInt d with
      | some p, some sg, some n, some q => some (.encRaw p sg n q)
      | _, _, _, _ => none
    else none
  | _ => none

/-- A statement from a line of text. -/
def parseLine (text : List Char) : Option AsmStmt :=
  parseWords (splitWords [] text)

end Sys2Proof.Machine
end

