-- ==== Sys2Proof/Machine/Requester.lean ====
section
/-! DEFINITION. A requester that runs the statements of 30_encoding.md rules R63 to R66 against the machine, one rising edge
at a time, and keeps the handshake of 70_reset_and_hazards.md rule R156. It is outside the block; it only chooses what the
ports carry. -/

namespace Sys2Proof.Machine

/-- A requester at work: the machine, the statements still to run, and the answers of the `CHECK` statements so far. -/
structure HostRun where
  machine : State
  todo    : List HostStmt
  checks  : List Bool
deriving DecidableEq, Repr

/-- Does the machine show the response that a `CHECK` states (30_encoding.md rule R66)? Status is read only while
`RSP_VALID = 1` (10_state.md rule R26). -/
def checkHolds (s : State) (status : BitVec 3) (bits : BitVec 80) : Bool :=
  s.rspValid && decide (s.rspStatus = status) && decide (s.rspBits = bits)

/-- The statements that take no edge are answered first: what is left, and the answers of the `CHECK`s among them. -/
def settleStmts (s : State) : List HostStmt → List HostStmt × List Bool
  | .check st b :: rest => ((settleStmts s rest).1, checkHolds s st b :: (settleStmts s rest).2)
  | .rst 0 :: rest => settleStmts s rest
  | .idle 0 :: rest => settleStmts s rest
  | todo => (todo, [])

/-- What the requester drives at the next edge (30_encoding.md rules R63, R66); `done` is the draw of that edge. -/
def drivenPorts (todo : List HostStmt) (done : Bool) : EdgeInput :=
  match todo with
  | .present r :: _ => { quietEdge with reqValid := true, req := r, done := done }
  | .rst _ :: _ => { quietEdge with rst := true, done := done }
  | _ => { quietEdge with done := done }

/-- The statements left after an edge: `s` is the machine at the edge, `t` after it. A request is held until the edge
with `req_ready = 1` (70_reset_and_hazards.md rule R156). -/
def stmtsAfterEdge (todo : List HostStmt) (s t : State) : List HostStmt :=
  match todo with
  | [] => []
  | .present r :: rest => if reqReady s then rest else .present r :: rest
  | .rst n :: rest => if n ≤ 1 then rest else .rst (n - 1) :: rest
  | .idle n :: rest => if n ≤ 1 then rest else .idle (n - 1) :: rest
  | .waitRsp :: rest => if t.rspValid then rest else .waitRsp :: rest
  | .check _ _ :: rest => rest

/-- The machine with the given port values at its next edge. -/
def withPorts (p : EdgeInput) (s : State) : State :=
  { s with inputs := p :: s.inputs }

/-- One rising edge of the requester and the machine together. -/
def hostEdge (h : HostRun) (done : Bool) : Host.Outcome HostRun Fault Refusal :=
  let left := settleStmts h.machine h.todo
  let s := withPorts (drivenPorts left.1 done) h.machine
  match step s with
  | .next t => .next { machine := t, todo := stmtsAfterEdge left.1 s t, checks := h.checks ++ left.2 }
  | .fault r => .fault r
  | .refused r => .refused r

/-- One edge for each draw, then the statements that take no edge. -/
def hostRun : List Bool → HostRun → Host.Outcome HostRun Fault Refusal
  | [], h =>
    let left := settleStmts h.machine h.todo
    .next { machine := h.machine, todo := left.1, checks := h.checks ++ left.2 }
  | done :: draws, h =>
    match hostEdge h done with
    | .next h' => hostRun draws h'
    | .fault r => .fault r
    | .refused r => .refused r

end Sys2Proof.Machine
end

