-- ==== Sys2Proof/Safety.lean ====
section
/-! DEFINITION. The terms claims are made in: the invariants of the result registers, runs of several edges, what a run
shows, and the value of a request and of a response as numbers. -/

namespace Sys2Proof.Machine

/-! ## Invariants -/

/-- The four invariants of the result registers (10_state.md rule R33). `RSP_BITS[79:LEN] = 0` is said as a bound. -/
structure ResultRegsOk (s : State) : Prop where
  clearedWhileInvalid : s.rspValid = false → s.rspStatus = 0#3 ∧ s.rspLen = 0#7 ∧ s.rspBits = 0#80
  okShape : s.rspValid = true → s.rspStatus = 0#3 →
    s.rspLen.toNat ∈ [16, 32, 64, 80] ∧ s.rspBits.toNat < 2 ^ s.rspLen.toNat
  errorShape : s.rspValid = true → s.rspStatus ≠ 0#3 →
    s.rspStatus.toNat ∈ [1, 2, 3, 4] ∧ s.rspLen = 0#7 ∧ s.rspBits = 0#80
  invalidWhileBusy : s.ctrl = .busy → s.rspValid = false

/-- The machine's invariant: once a reset edge has been seen, the result registers are as 10_state.md rule R33 says. Before
that nothing is specified (70_reset_and_hazards.md rule R154). -/
def Inv (s : State) : Prop :=
  s.resetSeen = true → ResultRegsOk s

/-- Every scripted request, and the one in flight, can be presented on ports of the widths `w` (00_scope.md rule R8). -/
def FitsPorts (w : PortWidths) (s : State) : Prop :=
  (∀ e ∈ s.inputs, e.req.fits w = true) ∧ (s.ctrl = .busy → (captured s).fits w = true)

/-! ## Runs -/

/-- `n` rising edges, stopping at the first fault or refusal. -/
def runEdges : Nat → State → Host.Outcome State Fault Refusal
  | 0, s => .next s
  | n + 1, s =>
    match step s with
    | .next t => runEdges n t
    | .fault r => .fault r
    | .refused r => .refused r

/-- How many edges a `BUSY` machine needs to complete with these coming inputs, if none of them resets it: the latency of
the request in flight (70_reset_and_hazards.md rule R161). -/
def edgesToDone : List EdgeInput → Nat
  | [] => 1
  | e :: es => if e.done then 1 else edgesToDone es + 1

/-- None of the first `n` coming edges is a reset edge. -/
def NoResetWithin (n : Nat) (es : List EdgeInput) : Prop :=
  ∀ e ∈ es.take n, e.rst = false

/-- None of the first `n` coming edges presents a request. -/
def NoRequestWithin (n : Nat) (es : List EdgeInput) : Prop :=
  ∀ e ∈ es.take n, e.reqValid = false

/-- The next edge accepts a request: the machine has been reset, it is ready, and a request is presented
(70_reset_and_hazards.md rule R156). -/
def AcceptsNext (s : State) : Prop :=
  s.resetSeen = true ∧ s.ctrl = .idle ∧ (sampled s).rst = false ∧ (sampled s).reqValid = true

/-- The next edge completes the request in flight (70_reset_and_hazards.md rule R155). -/
def CompletesNext (s : State) : Prop :=
  s.resetSeen = true ∧ s.ctrl = .busy ∧ (sampled s).rst = false ∧ (sampled s).done = true

/-- The four result registers together. -/
def shownResponse (s : State) : Bool × Response :=
  (s.rspValid, { status := s.rspStatus, len := s.rspLen, bits := s.rspBits })

/-- ENCODE applied to a request. -/
def encodeOf (r : Request) : Except ErrorClass BitStr :=
  encodeFn r.prec r.sign r.coeff r.exp

/-- The meaning of `i` on `s` is a completion that writes this response, returns to `IDLE` and changes nothing else
(60_exceptions.md rule R131). -/
def RunsTo (i : Instr) (s : State) (status : BitVec 3) (len : BitVec 7) (bits : BitVec 80) : Prop :=
  exec i s = .next { s with ctrl := .idle, rspValid := true, rspStatus := status, rspLen := len, rspBits := bits }

/-! ## Precision classes and instructions -/

/-- The precision code of a class (30_encoding.md rule R56). -/
def classCode : PrecClass → BitVec 8
  | .p16 => 0x10#8
  | .p32 => 0x20#8
  | .p64 => 0x40#8
  | .p80 => 0x50#8

/-- The instruction of a class (30_encoding.md rule R58). -/
def instrOf : PrecClass → Bool → Nat → Int → Instr
  | .p16, sg, c, q => .encH sg c q
  | .p32, sg, c, q => .encS sg c q
  | .p64, sg, c, q => .encD sg c q
  | .p80, sg, c, q => .encX sg c q

/-- A precision code of none of the four classes (30_encoding.md rule R56). -/
def IllegalCode (prec : BitVec 8) : Prop :=
  prec ≠ 0x10#8 ∧ prec ≠ 0x20#8 ∧ prec ≠ 0x40#8 ∧ prec ≠ 0x50#8

/-! ## Numbers -/

/-- The magnitude `|v| = C * 10^q` of a request (30_encoding.md rule R57). -/
def magnitude (c : Nat) (q : Int) : ℚ :=
  (c : ℚ) * (10 : ℚ) ^ q

/-- The smallest magnitude a class accepts, `2^-N` (41_encoder.md rule R105). -/
def leastMagnitude (p : PrecClass) : ℚ :=
  1 / 2 ^ fracDigits p

/-- The first magnitude a class no longer accepts, `2^(2^W_E - B)` (41_encoder.md rule R105). -/
def overflowMagnitude (p : PrecClass) : ℚ :=
  2 ^ (2 ^ (classConst p).expWidth - (classConst p).bias)

/-- The number in the exponent field of an output string (30_encoding.md rule R62). -/
def strExponent (p : PrecClass) (str : BitStr) : Nat :=
  strValue ((str.drop 1).take (classConst p).expWidth)

/-- The sign bit of a response (30_encoding.md rule R62). -/
def signField (p : PrecClass) (bits : BitVec 80) : Nat :=
  bits.toNat / 2 ^ (classWidth p - 1) % 2

/-- The exponent field of a response (30_encoding.md rule R62). -/
def exponentField (p : PrecClass) (bits : BitVec 80) : Nat :=
  bits.toNat / 2 ^ (classWidth p - 1 - (classConst p).expWidth) % 2 ^ (classConst p).expWidth

/-- The fraction field of a response (30_encoding.md rule R62). -/
def fractionField (p : PrecClass) (bits : BitVec 80) : Nat :=
  bits.toNat % 2 ^ (classConst p).fracWidth

/-- The explicit integer bit of an 80-bit response (30_encoding.md rule R62). -/
def integerBit (bits : BitVec 80) : Nat :=
  bits.toNat / 2 ^ 63 % 2

/-- The magnitude a response denotes, read with the unbiased exponent `e` (41_encoder.md rule R107). -/
def resultMagnitude (p : PrecClass) (e : Int) (fraction : Nat) : ℚ :=
  (2 : ℚ) ^ e * (1 + (fraction : ℚ) / 2 ^ (classConst p).fracWidth)

/-- One unit in the last stored fraction bit (00_scope.md §5). -/
def ulp (p : PrecClass) (e : Int) : ℚ :=
  (2 : ℚ) ^ (e - ((classConst p).fracWidth : Int))

/-- The `n`-digit binary numeral of `m mod 2^n`, leading zeros kept (40_converters.md rule R82). -/
def numeral (n m : Nat) : BitStr :=
  (List.range n).map fun i => decide (m / 2 ^ (n - 1 - i) % 2 = 1)

/-- What an instruction of one class does on every operand, by the magnitude of the input: the unsupported zero, the range
below `least`, the range from `overflow` up, and in between a completion with the output string of ENCODE, whose exponent field
is all ones from `allOnes` up (41_encoder.md rules R105, R106). -/
def EncodesClass (mk : Bool → Nat → Int → Instr) (p : PrecClass) (least overflow allOnes : ℚ) : Prop :=
  ∀ (sign : Bool) (c : Nat) (q : Int) (s : State),
    (c = 0 → RunsTo (mk sign c q) s 2#3 0#7 0#80) ∧
    (0 < c → magnitude c q < least → RunsTo (mk sign c q) s 4#3 0#7 0#80) ∧
    (overflow ≤ magnitude c q → RunsTo (mk sign c q) s 3#3 0#7 0#80) ∧
    (least ≤ magnitude c q → magnitude c q < overflow →
      ∃ str : BitStr, encodeFn (classCode p) sign c q = .ok str ∧ str.length = classWidth p ∧
        str.head? = some sign ∧
        RunsTo (mk sign c q) s 0#3 (BitVec.ofNat 7 (classWidth p)) (BitVec.ofNat 80 (strValue str)) ∧
        (strExponent p str = 2 ^ (classConst p).expWidth - 1 ↔ allOnes ≤ magnitude c q))

/-- The converter as the source states it: it stops as soon as the remainder is 0 (40_converters.md rule R79). -/
def fracStopping (den : Nat) : Nat → Nat → BitStr
  | 0, _ => []
  | n + 1, r =>
    if r = 0 then []
    else if den ≤ 2 * r then true :: fracStopping den n (2 * r - den)
    else false :: fracStopping den n (2 * r)

/-- The number a decimal literal denotes, without its sign (30_encoding.md rule R64). -/
def literalMagnitude (l : DecimalLit) : ℚ :=
  ((digitsValue l.intDigits : ℚ) + (digitsValue l.fracDigits : ℚ) / 10 ^ l.fracDigits.length) * (10 : ℚ) ^ l.exponent

end Sys2Proof.Machine
end

