-- ==== Sys2Proof/Certificates/Slice0/Obligations.lean ====
section
/-! DEFINITION. The statements for the provers. Each docstring names the rule of spec/ it formalises. -/

open Sys2Proof Sys2Proof.Machine

/-! ## Reset and the cycle step -/

/-- 10_state.md rule R35: the registers right after reset, and `req_ready` is 1. No value is claimed for the capture
registers, which the spec leaves unspecified. The invariant of rule R33 holds there. That `rst` is 0 at the next edge of
`State.reset` (it has no scripted input) is the model's choice, log entry 1; that a reset edge counts as seen there is log
entry 4. -/
def Obligations.ResetStateHasSpecValues : Prop :=
  State.reset.ctrl = .idle ∧ State.reset.rspValid = false ∧ State.reset.rspStatus = 0#3 ∧ State.reset.rspLen = 0#7 ∧
    State.reset.rspBits = 0#80 ∧ reqReady State.reset = true ∧ Inv State.reset

/-- 70_reset_and_hazards.md rule R151, from every state, whatever else is on the ports: the five registers, the capture
registers at free values, `req_ready` 0 meanwhile, and the next edge without `rst` can accept a request. The rule says
"unspecified" of the capture registers; that they then hold `freeRequest s.draws` is the model's choice, log entry 3. -/
def Obligations.ResetEdgeSetsRegisters : Prop :=
  ∀ s : State, (sampled s).rst = true →
    reqReady s = false ∧
    ∃ t, step s = .next t ∧ t.ctrl = .idle ∧ t.rspValid = false ∧ t.rspStatus = 0#3 ∧ t.rspLen = 0#7 ∧
      t.rspBits = 0#80 ∧ captured t = freeRequest s.draws ∧ t.inputs = s.inputs.tail ∧ t.resetSeen = true ∧
      ((sampled t).rst = false → reqReady t = true ∧
        ((sampled t).reqValid = true → ∃ u, step t = .next u ∧ u.ctrl = .busy ∧ captured u = (sampled t).req))

/-- 70_reset_and_hazards.md rule R152: after a reset edge no response appears for the request it aborted, however many edges
go by without a new request. That an edge past the end of the scripted inputs presents no request is the model's choice,
log entry 1. -/
def Obligations.ResetAbortsRequestSilently : Prop :=
  ∀ (s : State) (n : Nat), (sampled s).rst = true → NoRequestWithin n s.inputs.tail →
    ∃ t, runEdges (n + 1) s = .next t ∧ t.ctrl = .idle ∧ shownResponse t = (false, clearedResponse)

/-- 70_reset_and_hazards.md rule R155: what one rising edge does once the block has been reset, tried in the rule's order,
with the completion written from ENCODE on the capture registers; and a `BUSY` block that is not reset reaches its
completing edge. The free values of the capture registers and the counter `draws` at a reset edge are the model's choice,
log entry 3. That the draw `done` stands in `inputs`, whose end reads as `done = 1`, on which the second clause's fairness
rests, is the model's choice, log entry 1. -/
def Obligations.EdgeFollowsCycleStep : Prop :=
  (∀ s : State, s.resetSeen = true →
    step s = .next (
      if (sampled s).rst = true then
        { s with ctrl := .idle, rspValid := false, rspStatus := 0#3, rspLen := 0#7, rspBits := 0#80,
                 reqPrec := Config.freePrec s.draws, reqSign := Config.freeSign s.draws,
                 reqCoeff := Config.freeCoeff s.draws, reqExp := Config.freeExp s.draws,
                 draws := s.draws + 1, inputs := s.inputs.tail }
      else if s.ctrl = .idle ∧ (sampled s).reqValid = true then
        { s with reqPrec := (sampled s).req.prec, reqSign := (sampled s).req.sign,
                 reqCoeff := (sampled s).req.coeff, reqExp := (sampled s).req.exp, ctrl := .busy,
                 rspValid := false, rspStatus := 0#3, rspLen := 0#7, rspBits := 0#80, inputs := s.inputs.tail }
      else if s.ctrl = .busy ∧ (sampled s).done = true then
        match encodeFn s.reqPrec s.reqSign s.reqCoeff s.reqExp with
        | .error x => { s with rspStatus := errorCode x, rspLen := 0#7, rspBits := 0#80, rspValid := true,
                               ctrl := .idle, inputs := s.inputs.tail }
        | .ok str => { s with rspStatus := 0#3, rspLen := BitVec.ofNat 7 s.reqPrec.toNat,
                              rspBits := BitVec.ofNat 80 (strValue str), rspValid := true, ctrl := .idle,
                              inputs := s.inputs.tail }
      else { s with inputs := s.inputs.tail })) ∧
  (∀ s : State, s.resetSeen = true → s.ctrl = .busy → NoResetWithin (edgesToDone s.inputs) s.inputs →
    ∃ t, runEdges (edgesToDone s.inputs) s = .next t ∧ t.ctrl = .idle ∧ t.rspValid = true)

/-- A step runs the decoded instruction: when the bits of the request in flight decode to `i` and the edge completes it, the
step is `exec` of `i` on the state whose sampled input is behind (70_reset_and_hazards.md §2). -/
def Obligations.CompletingStepRunsDecodedInstr : Prop :=
  (∀ (s : State) (w : PortWidths) (b : RequestBits w) (i : Instr), CompletesNext s → captured s = assembleRequest w b →
    decode w b = .ok i → step s = exec i { s with inputs := s.inputs.tail }) ∧
  (∀ (s : State) (w : PortWidths) (i : Instr), CompletesNext s → i.wf w = true →
    captured s = assembleRequest w (encode w i) → step s = exec i { s with inputs := s.inputs.tail })

/-- 70_reset_and_hazards.md rule R154 and 93 S3: before the first reset edge a presented request has no meaning in the model
(its refusal, log entry 4), and a reset edge makes the machine's invariant true whatever the state was. The third clause,
that an edge with neither `rst` nor a request goes on and leaves the block unbooted, is the model's choice (log entry 4,
third line). -/
def Obligations.RequestBeforeFirstResetIsRefused : Prop :=
  ∀ s : State, s.resetSeen = false →
    ((sampled s).rst = false → (sampled s).reqValid = true → step s = .refused .requestBeforeFirstReset) ∧
    ((sampled s).rst = true → ∃ t, step s = .next t ∧ t.resetSeen = true ∧ ResultRegsOk t) ∧
    ((sampled s).rst = false → (sampled s).reqValid = false → ∃ t, step s = .next t ∧ t.resetSeen = false)

/-! ## Invariants -/

/-- 10_state.md rule R33: the invariants of the result registers hold after every clock edge. -/
def Obligations.StepKeepsResultRegisterInvariant : Prop :=
  ∀ s t : State, Inv s → step s = .next t → Inv t

/-- 00_scope.md rule R8, 10_state.md rule R24: a machine that is only ever presented requests that fit its ports holds, while
`BUSY`, a request that fits them. -/
def Obligations.StepKeepsRequestInFlightPresentable : Prop :=
  ∀ (w : PortWidths) (s t : State), FitsPorts w s → step s = .next t → FitsPorts w t

/-- 10_state.md rule R26, 30_encoding.md rule R60, 93 S6: a machine that has been reset never shows a reserved status code,
and an observer faults on one. -/
def Obligations.ReservedStatusNeverShown : Prop :=
  (∀ s t : State, s.resetSeen = true → Inv s → step s = .next t →
    readResponse (outputPorts t) =
      .ok (if t.rspValid = true then some { status := t.rspStatus, len := t.rspLen, bits := t.rspBits } else none)) ∧
  (∀ o : OutputPorts, o.rspValid = true → 5 ≤ o.rspStatus.toNat →
    readResponse o = .error (.reservedStatus o.rspStatus))

/-! ## Encoding -/

/-- Decode and encode agree on every instruction whose operands the ports can carry, at every port width, two's-complement
exponents among them (30_encoding.md rules R55, R57, R58). -/
def Obligations.DecodeOfEncodeIsInstr : Prop :=
  ∀ (w : PortWidths) (i : Instr), i.wf w = true → decode w (encode w i) = .ok i

/-- The other direction: no two patterns of port bits are one instruction, and what is decoded fits the ports. -/
def Obligations.EncodeOfDecodeIsBits : Prop :=
  ∀ (w : PortWidths) (b : RequestBits w) (i : Instr), decode w b = .ok i → i.wf w = true ∧ encode w i = b

/-- 30_encoding.md rule R58, the four rows written out bit by bit, with any operands; every other code is no row. -/
def Obligations.PrecCodeSelectsOperation : Prop :=
  ∀ (w : PortWidths) (b : RequestBits w),
    (b.prec = 0b00010000#8 → decode w b = .ok (.encH (decide (b.sign = 1#1)) b.coeff.toNat b.exp.toInt)) ∧
    (b.prec = 0b00100000#8 → decode w b = .ok (.encS (decide (b.sign = 1#1)) b.coeff.toNat b.exp.toInt)) ∧
    (b.prec = 0b01000000#8 → decode w b = .ok (.encD (decide (b.sign = 1#1)) b.coeff.toNat b.exp.toInt)) ∧
    (b.prec = 0b01010000#8 → decode w b = .ok (.encX (decide (b.sign = 1#1)) b.coeff.toNat b.exp.toInt)) ∧
    (IllegalCode b.prec → decode w b = .error (.illegalPrecision b.prec))

/-- 30_encoding.md rule R59, 60_exceptions.md rule R127: a request with any other code is accepted like any other and
completes with `CFG_ERR` and no output, whatever its operands. -/
def Obligations.IllegalCodeCompletesWithCfgErr : Prop :=
  (∀ s : State, AcceptsNext s → IllegalCode (sampled s).req.prec →
    ∃ t, step s = .next t ∧ t.ctrl = .busy ∧ captured t = (sampled s).req) ∧
  (∀ s : State, CompletesNext s → IllegalCode s.reqPrec →
    step s = .next { s with ctrl := .idle, rspValid := true, rspStatus := 1#3, rspLen := 0#7, rspBits := 0#80,
                            inputs := s.inputs.tail })

/-! ## The converters -/

/-- 40_converters.md rules R75 to R77: `RADIX(n)` is the numeral of `n` with no leading zero, exact for every natural. -/
def Obligations.RadixIsExactNumeral : Prop :=
  (∀ n : Nat, strValue (radix n) = n ∧ (1 ≤ n → (radix n).head? = some true) ∧
    (1 ≤ n → 2 ^ ((radix n).length - 1) ≤ n ∧ n < 2 ^ (radix n).length)) ∧
  radix 0 = [] ∧ radix 1 = [true] ∧ radix 3 = [true, true] ∧
  radix 2049 = [true, false, false, false, false, false, false, false, false, false, false, true]

/-- 40_converters.md rule R82: the loop of rule R78 gives the `N`-digit numeral of `floor(F * 2^N / D)`; digit `i` is
`floor(F * 2^i / D) mod 2`. -/
def Obligations.FracHasClosedForm : Prop :=
  ∀ num den n : Nat, num < den →
    frac num den n = numeral n (num * 2 ^ n / den) ∧
    ∀ i, 1 ≤ i → i ≤ n → (frac num den n)[i - 1]? = some (decide (num * 2 ^ i / den % 2 = 1))

/-- 40_converters.md rule R79: stopping when the remainder is 0 and padding on the right gives the same string as all `N`
iterations, which always number `N`. -/
def Obligations.FracMayStopAtZeroRemainder : Prop :=
  ∀ num den n : Nat, num < den →
    rpad (fracStopping den n num) n = frac num den n ∧ (frac num den n).length = n ∧ (num = 0 → frac num den n = zeros n)

/-! ## The Encoder -/

/-- 41_encoder.md rule R93: the sign is the first character of the output; everything else, the status among it, is the same
for both signs. -/
def Obligations.SignIsFirstCharacterOnly : Prop :=
  ∀ (prec : BitVec 8) (c : Nat) (q : Int),
    (∃ x, encodeFn prec false c q = .error x ∧ encodeFn prec true c q = .error x) ∨
    (∃ rest, encodeFn prec false c q = .ok (false :: rest) ∧ encodeFn prec true c q = .ok (true :: rest))

/-- 41_encoder.md rule R94: the split is exact, `I = floor(|v|)`, `F / D = |v| - I`, `0 ≤ F < D`, `D` a power of ten. -/
def Obligations.MagnitudeSplitIsExact : Prop :=
  ∀ (c : Nat) (q : Int),
    magInt c q = ⌊magnitude c q⌋₊ ∧ (magFrac c q : ℚ) / (magDen q : ℚ) = magnitude c q - (magInt c q : ℚ) ∧
    magFrac c q < magDen q ∧
    (0 ≤ q → magInt c q = c * 10 ^ q.toNat ∧ magFrac c q = 0 ∧ magDen q = 1) ∧
    (q < 0 → magDen q = 10 ^ (-q).toNat ∧ magInt c q = c / magDen q ∧ magFrac c q = c % magDen q)

/-- 41_encoder.md rule R99: the exponent field has `W_E` characters and is the numeral of `E`. -/
def Obligations.ExponentFieldIsPaddedNumeral : Prop :=
  ∀ (k : ClassConst) (biased : Nat), biased < 2 ^ k.expWidth →
    (expField k biased).length = k.expWidth ∧ strValue (expField k biased) = biased

/-- 41_encoder.md rule R100, with its corner cases: `M` is the first `W_F + 1` mantissa bits padded with zeros; the last
retained bit is replaced by the guard bit, so the fraction changes by guard minus last bit, in units of the last place, and
nothing is carried; an all-ones `M` stays all ones; no more than `W_F` mantissa bits give a last bit of 0. -/
def Obligations.GuardBitReplacesLastBit : Prop :=
  (∀ (f : Nat) (mb m : BitStr), 1 ≤ f → m = (List.range (f + 1)).map (fun i => mb.getD i false) →
    (roundGuard f mb).length = f ∧
    roundGuard f mb = m.take (f - 1) ++ [m.getD f false] ∧
    strValue (roundGuard f mb) + (m.getD (f - 1) false).toNat = strValue (m.take f) + (m.getD f false).toNat ∧
    (m = List.replicate (f + 1) true → roundGuard f mb = List.replicate f true) ∧
    (mb.length ≤ f → strValue (roundGuard f mb) % 2 = 0)) ∧
  (∀ s : State, RunsTo (.encH false 2047 0) s 0#3 16#7 0x67FE#80)

/-- 41_encoder.md rule R104: the response depends on the sign and the magnitude only, not on how the value is spelled; zero
gives `VAL_ERR` at every legal code. -/
def Obligations.SpellingDoesNotChangeResponse : Prop :=
  (∀ (prec : BitVec 8) (sign : Bool) (c c' : Nat) (q q' : Int), magnitude c q = magnitude c' q' →
    encodeFn prec sign c q = encodeFn prec sign c' q') ∧
  (∀ (p : PrecClass) (sign : Bool) (c c' : Nat) (q q' : Int) (s : State), magnitude c q = magnitude c' q' →
    exec (instrOf p sign c q) s = exec (instrOf p sign c' q') s) ∧
  (∀ (p : PrecClass) (sign : Bool) (q : Int), encodeFn (classCode p) sign 0 q = .error .valErr) ∧
  (∀ s : State, exec (.encH false 15 (-1)) s = exec (.encH false 150 (-2)) s)

/-- 41_encoder.md rule R105: status and exponent range by the magnitude alone. -/
def Obligations.StatusFollowsMagnitude : Prop :=
  (∀ (p : PrecClass) (sign : Bool) (c : Nat) (q : Int), 0 < c →
    (encodeFn (classCode p) sign c q = .error .rangeUnf ↔ magnitude c q < leastMagnitude p) ∧
    (magnitude c q < leastMagnitude p → magInt c q = 0 ∧ magFrac c q * 2 ^ fracDigits p / magDen q = 0) ∧
    (encodeFn (classCode p) sign c q = .error .rangeOvf ↔ overflowMagnitude p ≤ magnitude c q) ∧
    (leastMagnitude p ≤ magnitude c q → magnitude c q < overflowMagnitude p →
      ∃ str, encodeFn (classCode p) sign c q = .ok str ∧
        (classConst p).bias - fracDigits p ≤ strExponent p str ∧
        strExponent p str ≤ 2 ^ (classConst p).expWidth - 1 ∧
        (magnitude c q < 1 → strExponent p str ≤ (classConst p).bias - 1) ∧
        (1 ≤ magnitude c q → (classConst p).bias ≤ strExponent p str) ∧
        (p = .p80 → str.getD 16 false = true))) ∧
  (leastMagnitude .p16 = 1 / 2 ^ 11 ∧ leastMagnitude .p32 = 1 / 2 ^ 24 ∧ leastMagnitude .p64 = 1 / 2 ^ 53 ∧
    leastMagnitude .p80 = 1 / 2 ^ 64) ∧
  (overflowMagnitude .p16 = 2 ^ 17 ∧ overflowMagnitude .p32 = 2 ^ 129 ∧ overflowMagnitude .p64 = 2 ^ 1025 ∧
    overflowMagnitude .p80 = 2 ^ 16385) ∧
  ((classConst .p16).bias - fracDigits .p16 = 4 ∧ (classConst .p32).bias - fracDigits .p32 = 103 ∧
    (classConst .p64).bias - fracDigits .p64 = 970 ∧ (classConst .p80).bias - fracDigits .p80 = 16319)

/-- 41_encoder.md rule R106: exactly the top binade gives the all-ones exponent field, with status `OK`. -/
def Obligations.TopBinadeGivesAllOnesExponent : Prop :=
  (∀ (p : PrecClass) (sign : Bool) (c : Nat) (q : Int), 0 < c →
    ((∃ str, encodeFn (classCode p) sign c q = .ok str ∧ strExponent p str = 2 ^ (classConst p).expWidth - 1) ↔
      2 ^ (2 ^ (classConst p).expWidth - (classConst p).bias - 1) ≤ magnitude c q ∧
        magnitude c q < 2 ^ (2 ^ (classConst p).expWidth - (classConst p).bias))) ∧
  (∀ s : State, RunsTo (.encH false 65536 0) s 0#3 16#7 0x7C00#80) ∧
  (∀ s : State, RunsTo (.encH false 98304 0) s 0#3 16#7 0x7E00#80) ∧
  (∀ s : State, RunsTo (.encS false 4 38) s 0#3 32#7 0x7F967698#80)

/-- 41_encoder.md rule R107: the whole result in closed form, for ENC.H, ENC.S, ENC.D and ENC.X on every accepted value.
The instruction completes with status `OK`; the exponent field is `floor(log2 |v|) + B`; from 1 up the fraction is the rule's
formula in `t` and the error is within -1.5 and +0.5 ulp; in `[1/2, 1)` and below 1/2 the result is the rule's truncation,
with a last fraction bit of 0. The rule's two counterexamples to a round trip stand at the end. -/
def Obligations.OkResultHasClosedForm : Prop :=
  (∀ (p : PrecClass) (sign : Bool) (c : Nat) (q : Int) (s : State), 0 < c →
    leastMagnitude p ≤ magnitude c q → magnitude c q < overflowMagnitude p →
    ∃ bits : BitVec 80,
      RunsTo (instrOf p sign c q) s 0#3 (BitVec.ofNat 7 (classWidth p)) bits ∧
      bits.toNat < 2 ^ classWidth p ∧ signField p bits = sign.toNat ∧
      (exponentField p bits : Int) = Int.log 2 (magnitude c q) + ((classConst p).bias : Int) ∧
      (p = .p80 → integerBit bits = 1) ∧
      (1 ≤ magnitude c q →
        ∃ t : Nat, t = ⌊magnitude c q * (2 : ℚ) ^ (((classConst p).fracWidth : Int) + 1 - Int.log 2 (magnitude c q))⌋₊ ∧
          2 ^ ((classConst p).fracWidth + 1) ≤ t ∧ t < 2 ^ ((classConst p).fracWidth + 2) ∧
          fractionField p bits = 2 * (t / 4 - 2 ^ ((classConst p).fracWidth - 1)) + t % 2 ∧
          -(3 / 2) * ulp p (Int.log 2 (magnitude c q)) <
            resultMagnitude p (Int.log 2 (magnitude c q)) (fractionField p bits) - magnitude c q ∧
          resultMagnitude p (Int.log 2 (magnitude c q)) (fractionField p bits) - magnitude c q ≤
            1 / 2 * ulp p (Int.log 2 (magnitude c q))) ∧
      (1 / 2 ≤ magnitude c q → magnitude c q < 1 →
        resultMagnitude p (Int.log 2 (magnitude c q)) (fractionField p bits) =
          (⌊magnitude c q * 2 ^ (classConst p).fracWidth⌋₊ : ℚ) / 2 ^ (classConst p).fracWidth ∧
        -2 * ulp p (Int.log 2 (magnitude c q)) <
          resultMagnitude p (Int.log 2 (magnitude c q)) (fractionField p bits) - magnitude c q ∧
        resultMagnitude p (Int.log 2 (magnitude c q)) (fractionField p bits) - magnitude c q ≤ 0 ∧
        fractionField p bits % 2 = 0) ∧
      (magnitude c q < 1 / 2 →
        resultMagnitude p (Int.log 2 (magnitude c q)) (fractionField p bits) =
          (⌊magnitude c q * 2 ^ fracDigits p⌋₊ : ℚ) / 2 ^ fracDigits p ∧
        fractionField p bits % 2 = 0)) ∧
  (∀ s : State, RunsTo (.encH false 1001220703125 (-12)) s 0#3 16#7 0x3C00#80 ∧
    resultMagnitude .p16 0 0 - magnitude 1001220703125 (-12) = -(5 / 4) * ulp .p16 0) ∧
  (∀ s : State, RunsTo (.encS false 1 (-1)) s 0#3 32#7 0x3DCCCCC8#80 ∧
    resultMagnitude .p32 (-4) 0x4CCCC8 - magnitude 1 (-1) = -(24 / 5) * ulp .p32 (-4))

/-- 60_exceptions.md rule R132: one status, by priority: the precision first, then zero, then the missing first `'1'`, then
the exponent range, whose two errors exclude each other. -/
def Obligations.FirstErrorInPriorityWins : Prop :=
  (∀ (prec : BitVec 8) (sign : Bool) (c : Nat) (q : Int), IllegalCode prec →
    encodeFn prec sign c q = .error .cfgErr) ∧
  (∀ (p : PrecClass) (sign : Bool) (c : Nat) (q : Int), c = 0 → encodeFn (classCode p) sign c q = .error .valErr) ∧
  (∀ (p : PrecClass) (sign : Bool) (c : Nat) (q : Int), 0 < c → magInt c q = 0 →
    find1 (frac (magFrac c q) (magDen q) (fracDigits p)) = none →
    encodeFn (classCode p) sign c q = .error .rangeUnf) ∧
  (∀ (p : PrecClass) (sign : Bool) (c : Nat) (q : Int), 0 < c →
    encodeFn (classCode p) sign c q ≠ .error .cfgErr ∧ encodeFn (classCode p) sign c q ≠ .error .valErr ∧
    ¬ (overflowMagnitude p ≤ magnitude c q ∧ magnitude c q < leastMagnitude p)) ∧
  (encodeFn 0x30#8 false 0 0 = .error .cfgErr ∧ encodeFn 0x30#8 false 1 400 = .error .cfgErr ∧
    encodeFn 0x10#8 true 0 0 = .error .valErr)

/-! ## The four operations -/

/-- 41_encoder.md rule R110, `ENC.H`: its code; on every operand and state it completes, writing only the result registers
and `STATE`; its exceptions, its all-ones range, its corner cases and its example. -/
def Obligations.EncHEncodesHalfPrecision : Prop :=
  (∀ (w : PortWidths) (b : RequestBits w), b.prec = 0x10#8 →
    decode w b = .ok (.encH (decide (b.sign = 1#1)) b.coeff.toNat b.exp.toInt)) ∧
  EncodesClass Instr.encH .p16 (1 / 2 ^ 11) 131072 65536 ∧
  (∀ s : State,
    RunsTo (.encH false 65536 0) s 0#3 16#7 0x7C00#80 ∧ RunsTo (.encH false 2047 0) s 0#3 16#7 0x67FE#80 ∧
    RunsTo (.encH false 4095 0) s 0#3 16#7 0x6BFF#80 ∧
    RunsTo (.encH false 10009765625 (-10)) s 0#3 16#7 0x3C00#80 ∧
    RunsTo (.encH false 100048828125 (-11)) s 0#3 16#7 0x3C01#80 ∧
    RunsTo (.encH false 2049 0) s 0#3 16#7 0x6801#80 ∧ RunsTo (.encH false 1 (-4)) s 4#3 0#7 0#80 ∧
    RunsTo (.encH false 10 (-1)) s 0#3 16#7 0b0011110000000000#80)

/-- 41_encoder.md rule R111, `ENC.S`: as for `ENC.H`, in single precision. -/
def Obligations.EncSEncodesSinglePrecision : Prop :=
  (∀ (w : PortWidths) (b : RequestBits w), b.prec = 0x20#8 →
    decode w b = .ok (.encS (decide (b.sign = 1#1)) b.coeff.toNat b.exp.toInt)) ∧
  EncodesClass Instr.encS .p32 (1 / 2 ^ 24) (2 ^ 129) (2 ^ 128) ∧
  (∀ s : State,
    RunsTo (.encS false 4 38) s 0#3 32#7 0x7F967698#80 ∧ RunsTo (.encS false 16777217 0) s 0#3 32#7 0x4B800001#80 ∧
    RunsTo (.encS false 1 (-1)) s 0#3 32#7 0x3DCCCCC8#80 ∧
    RunsTo (.encS false 59604644775390625 (-24)) s 0#3 32#7 0x33800000#80 ∧
    RunsTo (.encS false 298023223876953125 (-25)) s 4#3 0#7 0#80 ∧
    RunsTo (.encS false 10 (-1)) s 0#3 32#7 0b00111111100000000000000000000000#80 ∧
    RunsTo (.encS true 10 (-1)) s 0#3 32#7 0xBF800000#80 ∧ RunsTo (.encS false 5 (-1)) s 0#3 32#7 0x3F000000#80)

/-- 41_encoder.md rule R112, `ENC.D`: as for `ENC.H`, in double precision. -/
def Obligations.EncDEncodesDoublePrecision : Prop :=
  (∀ (w : PortWidths) (b : RequestBits w), b.prec = 0x40#8 →
    decode w b = .ok (.encD (decide (b.sign = 1#1)) b.coeff.toNat b.exp.toInt)) ∧
  EncodesClass Instr.encD .p64 (1 / 2 ^ 53) (2 ^ 1025) (2 ^ 1024) ∧
  (∀ s : State,
    RunsTo (.encD false 1 309) s 3#3 0#7 0#80 ∧ RunsTo (.encD false 1 (-1)) s 0#3 64#7 0x3FB9999999999998#80 ∧
    RunsTo (.encD true 123456 (-3)) s 0#3 64#7 0xC05EDD2F1A9FBE77#80 ∧
    RunsTo (.encD false 15 (-1)) s 0#3 64#7 0x3FF8000000000000#80)

/-- 41_encoder.md rule R113, `ENC.X`: as for `ENC.H`, in the 80-bit format, with the integer bit `J` always 1. -/
def Obligations.EncXEncodesExtendedPrecision : Prop :=
  (∀ (w : PortWidths) (b : RequestBits w), b.prec = 0x50#8 →
    decode w b = .ok (.encX (decide (b.sign = 1#1)) b.coeff.toNat b.exp.toInt)) ∧
  EncodesClass Instr.encX .p80 (1 / 2 ^ 64) (2 ^ 16385) (2 ^ 16384) ∧
  (∀ (sign : Bool) (c : Nat) (q : Int) (str : BitStr), encodeFn 0x50#8 sign c q = .ok str → str.getD 16 false = true) ∧
  (∀ s : State,
    RunsTo (.encX false 1 4933) s 3#3 0#7 0#80 ∧ RunsTo (.encX false 1 (-1)) s 0#3 80#7 0x3FFBCCCCCCCCCCCCCCC8#80 ∧
    RunsTo (.encX false 75 (-2)) s 0#3 80#7 0x3FFEC000000000000000#80 ∧
    RunsTo (.encX false 10 (-1)) s 0#3 80#7 0x3FFF8000000000000000#80)

/-! ## Completion and the result registers -/

/-- 60_exceptions.md rule R131: what a completion writes, with an error and with an output, for every instruction and for a
request that is none; nothing else changes. -/
def Obligations.CompletionWritesResultRegisters : Prop :=
  (∀ (i : Instr) (s : State) (x : ErrorClass), encodeOf (encodeRequest i) = .error x →
    RunsTo i s (errorCode x) 0#7 0#80) ∧
  (∀ (i : Instr) (s : State) (str : BitStr), encodeOf (encodeRequest i) = .ok str →
    RunsTo i s 0#3 (BitVec.ofNat 7 (encodeRequest i).prec.toNat) (BitVec.ofNat 80 (strValue str))) ∧
  (∀ s : State, CompletesNext s → IllegalCode s.reqPrec →
    step s = .next { s with ctrl := .idle, rspValid := true, rspStatus := errorCode .cfgErr, rspLen := 0#7,
                            rspBits := 0#80, inputs := s.inputs.tail })

/-- The frame of ENC.H, ENC.S, ENC.D and ENC.X (60_exceptions.md rule R133): the capture registers and everything but the
result registers and `STATE` stay; there is no memory to change. -/
def Obligations.ExecLeavesAllButResultRegisters : Prop :=
  ∀ (i : Instr) (s t : State), exec i s = .next t →
    captured t = captured s ∧ t.resetSeen = s.resetSeen ∧ t.inputs = s.inputs ∧ t.draws = s.draws ∧
    t.ctrl = .idle ∧ t.rspValid = true

/-- 10_state.md rule R28: where each character of the output string stands in `RSP_BITS`; all zeros at any other completion,
at acceptance and at reset. -/
def Obligations.RspBitsHoldOutputString : Prop :=
  (∀ (i : Instr) (s : State) (str : BitStr), encodeOf (encodeRequest i) = .ok str →
    ∃ t, exec i s = .next t ∧ str.length = (encodeRequest i).prec.toNat ∧
      (∀ k, 1 ≤ k → k ≤ str.length → t.rspBits.getLsbD (str.length - k) = str.getD (k - 1) false) ∧
      (∀ k, str.length ≤ k → t.rspBits.getLsbD k = false)) ∧
  (∀ (i : Instr) (s : State) (x : ErrorClass), encodeOf (encodeRequest i) = .error x →
    ∃ t, exec i s = .next t ∧ t.rspBits = 0#80) ∧
  (∀ s : State, CompletesNext s → IllegalCode s.reqPrec → ∃ t, step s = .next t ∧ t.rspBits = 0#80) ∧
  (∀ s : State, AcceptsNext s ∨ (sampled s).rst = true → ∃ t, step s = .next t ∧ t.rspBits = 0#80)

/-- 70_reset_and_hazards.md rule R158: a response stays on the outputs, unchanged, at every edge that neither accepts nor
resets; an edge that does clears all four registers; while `RSP_VALID = 0` they read as zero. -/
def Obligations.ResponseHeldUntilAcceptanceOrReset : Prop :=
  ∀ s : State, s.resetSeen = true → Inv s →
    (s.rspValid = true → ¬ AcceptsNext s → (sampled s).rst = false →
      ∃ t, step s = .next t ∧ shownResponse t = shownResponse s) ∧
    (AcceptsNext s ∨ (sampled s).rst = true →
      ∃ t, step s = .next t ∧ shownResponse t = (false, clearedResponse)) ∧
    (s.rspValid = false → (outputPorts s).rspStatus = 0#3 ∧ (outputPorts s).rspLen = 0#7 ∧
      (outputPorts s).rspBits = 0#80)

/-! ## Handshake, ordering, hazards -/

/-- 70_reset_and_hazards.md rule R156, 10_state.md rules R24, R29: a request is accepted exactly at an edge with
`req_valid = 1` and `req_ready = 1`; the fields are captured there and, resets apart, nowhere else. -/
def Obligations.AcceptedExactlyWhenValidAndReady : Prop :=
  ∀ s : State, s.resetSeen = true →
    ∃ t, step s = .next t ∧
      ((s.ctrl = .idle ∧ t.ctrl = .busy) ↔ ((sampled s).reqValid = true ∧ reqReady s = true)) ∧
      ((sampled s).reqValid = true → reqReady s = true → captured t = (sampled s).req) ∧
      (¬ ((sampled s).reqValid = true ∧ reqReady s = true) → (sampled s).rst = false → captured t = captured s)

/-- 20_memory.md rule R46: a response appears only by completing the one request in flight, and that request stays the same
until then. -/
def Obligations.ResponseOnlyForRequestInFlight : Prop :=
  ∀ s t : State, s.resetSeen = true → Inv s → step s = .next t →
    (t.rspValid = true → shownResponse t ≠ shownResponse s → CompletesNext s ∧
      shownResponse t = (true, responseOf s.reqPrec (encodeOf (captured s)))) ∧
    (s.ctrl = .busy → t.ctrl = .busy → captured t = captured s ∧ t.rspValid = false)

/-- 70_reset_and_hazards.md rule R159: while the block is `BUSY` the live request ports have no effect, and the fields
presented at the first edge with `req_ready = 1` are the ones taken. -/
def Obligations.PortChangesWhileBusyHaveNoEffect : Prop :=
  (∀ (s : State) (e e' : EdgeInput) (rest : List EdgeInput), s.resetSeen = true → s.ctrl = .busy →
    e.rst = e'.rst → e.done = e'.done →
    step { s with inputs := e :: rest } = step { s with inputs := e' :: rest }) ∧
  (∀ s : State, AcceptsNext s → ∃ t, step s = .next t ∧ t.ctrl = .busy ∧ captured t = (sampled s).req)

/-- 70_reset_and_hazards.md rule R162: an accepted request that is not reset completes after finitely many edges, at least
one, with exactly one response: none before, ENCODE of the accepted fields at the end. The rule's fairness holds here
because `inputs` is finite and its end reads as `done = 1`, the model's choice of log entry 1. -/
def Obligations.AcceptedRequestCompletes : Prop :=
  ∀ s : State, AcceptsNext s → NoResetWithin (edgesToDone s.inputs.tail) s.inputs.tail →
    1 ≤ edgesToDone s.inputs.tail ∧
    (∀ k, 1 ≤ k → k ≤ edgesToDone s.inputs.tail →
      ∃ t, runEdges k s = .next t ∧ t.ctrl = .busy ∧ t.rspValid = false ∧ captured t = (sampled s).req) ∧
    ∃ t, runEdges (edgesToDone s.inputs.tail + 1) s = .next t ∧ t.ctrl = .idle ∧
      shownResponse t = (true, responseOf (sampled s).req.prec (encodeOf (sampled s).req))

/-- 10_state.md rule R34: two machines, whatever their registers and histories, that accept the same request, with whatever
latencies and whatever is on the ports meanwhile, show the same response. That both complete rests on the fairness of
`inputs`, whose end reads as `done = 1`, the model's choice of log entry 1. -/
def Obligations.ResponseDependsOnlyOnRequest : Prop :=
  ∀ s s' : State, AcceptsNext s → AcceptsNext s' → (sampled s).req = (sampled s').req →
    NoResetWithin (edgesToDone s.inputs.tail) s.inputs.tail →
    NoResetWithin (edgesToDone s'.inputs.tail) s'.inputs.tail →
    ∃ t t', runEdges (edgesToDone s.inputs.tail + 1) s = .next t ∧
      runEdges (edgesToDone s'.inputs.tail + 1) s' = .next t' ∧
      t.rspValid = true ∧ shownResponse t = shownResponse t'

/-! ## The requester and its notation -/

/-- 30_encoding.md rule R64: the fields of a decimal literal denote its value exactly; literals of the same sign and value
give the same response; the rule's examples. -/
def Obligations.LiteralFieldsDenoteItsValue : Prop :=
  (∀ (prec : BitVec 8) (l : DecimalLit),
    (literalRequest prec l).sign = l.negative ∧
    (literalRequest prec l).coeff =
      digitsValue l.intDigits * 10 ^ l.fracDigits.length + digitsValue l.fracDigits ∧
    (literalRequest prec l).exp = l.exponent - (l.fracDigits.length : Int) ∧
    magnitude (literalRequest prec l).coeff (literalRequest prec l).exp = literalMagnitude l) ∧
  (∀ (prec : BitVec 8) (l l' : DecimalLit), l.negative = l'.negative → literalMagnitude l = literalMagnitude l' →
    encodeOf (literalRequest prec l) = encodeOf (literalRequest prec l')) ∧
  ((parseLiteral ['1', '.', '5']).map (literalRequest 0#8) = some { prec := 0#8, sign := false, coeff := 15, exp := -1 } ∧
    (parseLiteral ['-', '2', '.', '5']).map (literalRequest 0#8) =
      some { prec := 0#8, sign := true, coeff := 25, exp := -1 } ∧
    (parseLiteral ['1', '.', '5', 'e', '-', '5']).map (literalRequest 0#8) =
      some { prec := 0#8, sign := false, coeff := 15, exp := -6 } ∧
    (parseLiteral ['1', '0', '0']).map (literalRequest 0#8) =
      some { prec := 0#8, sign := false, coeff := 100, exp := 0 } ∧
    (parseLiteral ['-', '0']).map (literalRequest 0#8) = some { prec := 0#8, sign := true, coeff := 0, exp := 0 } ∧
    (parseLiteral ['0', '.', '0', '0', '0']).map (literalRequest 0#8) =
      some { prec := 0#8, sign := false, coeff := 0, exp := -3 })

/-- 30_encoding.md rule R63, 70_reset_and_hazards.md rules R156, R157: a statement that presents a request keeps presenting it
while the block is `BUSY`, and is done at the edge that accepts it. -/
def Obligations.PresentedRequestIsHeldUntilAccepted : Prop :=
  ∀ (h : HostRun) (r : Request) (rest : List HostStmt) (done : Bool), h.machine.resetSeen = true →
    h.todo = .present r :: rest →
    (h.machine.ctrl = .busy → ∃ h', hostEdge h done = .next h' ∧ h'.todo = .present r :: rest ∧
      captured h'.machine = captured h.machine) ∧
    (h.machine.ctrl = .idle → ∃ h', hostEdge h done = .next h' ∧ h'.todo = rest ∧ h'.machine.ctrl = .busy ∧
      captured h'.machine = r)
end

