-- ==== Sys2Proof/Laws/Operands.lean ====
section
/-! SUPPORT. Lengths and values of bit strings, and what `find1` finds. -/

namespace Sys2Proof.Machine

@[simp] theorem zeros_length (n : Nat) : (zeros n).length = n := by
  simp [zeros]

@[simp] theorem rpad_length (s : BitStr) (n : Nat) : (rpad s n).length = n := by
  simp [rpad]

theorem lpad_length (s : BitStr) (n : Nat) (h : s.length ≤ n) : (lpad s n).length = n := by
  simp [lpad]; omega

theorem strValueFrom_eq (acc : Nat) (s : BitStr) : strValueFrom acc s = acc * 2 ^ s.length + strValueFrom 0 s := by
  induction s generalizing acc with
  | nil => simp [strValueFrom]
  | cons b s ih =>
    simp only [strValueFrom, List.length_cons, Nat.mul_zero, Nat.zero_add]
    rw [ih, ih b.toNat, Nat.pow_succ]
    ring

@[simp] theorem strValue_nil : strValue [] = 0 := rfl

theorem strValue_cons (b : Bool) (s : BitStr) : strValue (b :: s) = b.toNat * 2 ^ s.length + strValue s := by
  simp only [strValue, strValueFrom, Nat.mul_zero, Nat.zero_add]
  exact strValueFrom_eq _ _

theorem strValue_append (s t : BitStr) : strValue (s ++ t) = strValue s * 2 ^ t.length + strValue t := by
  induction s with
  | nil => simp
  | cons b s ih => simp [strValue_cons, ih, Nat.pow_add]; ring

@[simp] theorem strValue_zeros (n : Nat) : strValue (zeros n) = 0 := by
  induction n with
  | zero => rfl
  | succ n ih => simpa [zeros, List.replicate_succ, strValue_cons] using ih

theorem strValue_lt (s : BitStr) : strValue s < 2 ^ s.length := by
  induction s with
  | nil => simp
  | cons b s ih => cases b <;> simp [strValue_cons, Nat.pow_succ] <;> omega

/-- `find1` answers none exactly where no character is `'1'`. -/
theorem find1_none_iff (s : BitStr) : find1 s = none ↔ strValue s = 0 := by
  induction s with
  | nil => simp [find1]
  | cons b s ih => cases b <;> simp [find1, strValue_cons, ih]

/-- The index `find1` answers: zeros before it, a `'1'` at it. -/
theorem find1_some (s : BitStr) (j : Nat) (h : find1 s = some j) : s = zeros j ++ true :: s.drop (j + 1) := by
  induction s generalizing j with
  | nil => simp [find1] at h
  | cons b s ih =>
    cases b with
    | true => simp [find1] at h; subst h; simp [zeros]
    | false =>
      simp only [find1, Option.map_eq_some_iff] at h
      obtain ⟨i, hi, rfl⟩ := h
      have := ih i hi
      simpa [zeros, List.replicate_succ] using this

end Sys2Proof.Machine
end

