-- ==== Sys2Proof/Laws/Converters.lean ====
section
/-! SUPPORT. The one-step facts of the two converters, and the lengths of what they answer. -/

namespace Sys2Proof.Machine

@[simp] theorem fracLoop_length (den n r : Nat) : (fracLoop den n r).length = n := by
  induction n generalizing r with
  | zero => rfl
  | succ n ih => simp only [fracLoop]; split <;> simp [ih]

/-- `FRAC` answers exactly `N` digits (40_converters.md rule R79). -/
@[simp] theorem frac_length (num den n : Nat) : (frac num den n).length = n :=
  fracLoop_length den n num

/-- Digits already read off stay where they are. -/
theorem radixLoop_acc (fuel n : Nat) (acc : BitStr) : radixLoop fuel n acc = radixLoop fuel n [] ++ acc := by
  induction fuel generalizing n acc with
  | zero => rfl
  | succ fuel ih =>
    simp only [radixLoop]
    split
    · rfl
    · rw [ih, ih (n / 2) [_]]; simp

@[simp] theorem radix_zero : radix 0 = [] := rfl

end Sys2Proof.Machine
end

