-- ==== Sys2Proof/Laws/Decode.lean ====
section
/-! SUPPORT. What the decoder answers on each precision code, and that a table word reads the same at every port width. -/

namespace Sys2Proof

theorem decodeRequest_encH (r : Request) (h : r.prec = 0x10#8) :
    decodeRequest r = .ok (.encH r.sign r.coeff r.exp) := by
  simp [decodeRequest, h]

theorem decodeRequest_encS (r : Request) (h : r.prec = 0x20#8) :
    decodeRequest r = .ok (.encS r.sign r.coeff r.exp) := by
  simp [decodeRequest, h]

theorem decodeRequest_encD (r : Request) (h : r.prec = 0x40#8) :
    decodeRequest r = .ok (.encD r.sign r.coeff r.exp) := by
  simp [decodeRequest, h]

theorem decodeRequest_encX (r : Request) (h : r.prec = 0x50#8) :
    decodeRequest r = .ok (.encX r.sign r.coeff r.exp) := by
  simp [decodeRequest, h]

theorem decodeRequest_illegal (r : Request)
    (h : r.prec ≠ 0x10#8 ∧ r.prec ≠ 0x20#8 ∧ r.prec ≠ 0x40#8 ∧ r.prec ≠ 0x50#8) :
    decodeRequest r = .error (.illegalPrecision r.prec) := by
  simp [decodeRequest, h]

/-- Everything a decoded request can be: the decoder drops no operand and reads no other code. -/
theorem decodeRequest_ok_inv (r : Request) (i : Instr) (h : decodeRequest r = .ok i) : encodeRequest i = r := by
  obtain ⟨p, sg, c, q⟩ := r
  simp only [decodeRequest] at h
  split at h
  · cases h; simp_all [encodeRequest]
  split at h
  · cases h; simp_all [encodeRequest]
  split at h
  · cases h; simp_all [encodeRequest]
  split at h
  · cases h; simp_all [encodeRequest]
  · cases h

/-- Only an illegal precision code is rejected. -/
theorem decodeRequest_error_inv (r : Request) (x : DecodeError) (h : decodeRequest r = .error x) :
    r.prec ≠ 0x10#8 ∧ r.prec ≠ 0x20#8 ∧ r.prec ≠ 0x40#8 ∧ r.prec ≠ 0x50#8 := by
  refine ⟨?_, ?_, ?_, ?_⟩ <;> intro hp <;> simp [decodeRequest, hp] at h

/-- Operand ports that carry only zeros read the same at every width, so the widths chosen for a table word do not
count. -/
theorem decode_tableBits (w w' : PortWidths) (nbits word : Nat) :
    decode w (tableBits w nbits word) = decode w' (tableBits w' nbits word) := by
  simp [decode, assembleRequest, tableBits]

end Sys2Proof
end

