-- ==== Sys2Proof/Laws/Encoder.lean ====
section
/-! SUPPORT. What each stage of the Encoder can answer. -/

namespace Sys2Proof.Machine

@[simp] theorem precClass_0x10 : precClass 0x10#8 = some .p16 := rfl
@[simp] theorem precClass_0x20 : precClass 0x20#8 = some .p32 := rfl
@[simp] theorem precClass_0x40 : precClass 0x40#8 = some .p64 := rfl
@[simp] theorem precClass_0x50 : precClass 0x50#8 = some .p80 := rfl

theorem precClass_illegal (prec : BitVec 8)
    (h : prec ≠ 0x10#8 ∧ prec ≠ 0x20#8 ∧ prec ≠ 0x40#8 ∧ prec ≠ 0x50#8) : precClass prec = none := by
  simp [precClass, h]

/-- The code of a class is its output width (30_encoding.md rule R56). -/
theorem precClass_some (prec : BitVec 8) (p : PrecClass) (h : precClass prec = some p) :
    prec.toNat = classWidth p := by
  simp only [precClass] at h
  split at h
  · cases h; simp_all [classWidth]
  split at h
  · cases h; simp_all [classWidth]
  split at h
  · cases h; simp_all [classWidth]
  split at h
  · cases h; simp_all [classWidth]
  · cases h

/-- The fraction field has `W_F` characters whatever the mantissa bits are (41_encoder.md rule R100). -/
theorem roundGuard_length (f : Nat) (mb : BitStr) (h : 0 < f) : (roundGuard f mb).length = f := by
  simp [roundGuard]; omega

/-- An error of ENCODE for a legal class: the zero check, the missing first `'1'`, or the exponent range. -/
theorem encodeDigits_cases (k : ClassConst) (sign : Bool) (int : Nat) (ib fb : BitStr) :
    (locatePoint int ib fb = .error .rangeUnf ∧ encodeDigits k sign int ib fb = .error .rangeUnf) ∨
    (∃ e mb x, locatePoint int ib fb = .ok (e, mb) ∧ biasedExponent k e = .error x ∧
      encodeDigits k sign int ib fb = .error x) ∨
    (∃ e mb biased, locatePoint int ib fb = .ok (e, mb) ∧ biasedExponent k e = .ok biased ∧
      encodeDigits k sign int ib fb = .ok (assembleOutput k sign biased (roundGuard k.fracWidth mb))) := by
  cases hl : locatePoint int ib fb with
  | error x =>
    left
    have hx : x = .rangeUnf := by
      simp only [locatePoint] at hl
      split at hl
      · cases hl
      · split at hl <;> cases hl; rfl
    subst hx
    exact ⟨rfl, by simp [encodeDigits, hl]⟩
  | ok em =>
    obtain ⟨e, mb⟩ := em
    right
    cases hb : biasedExponent k e with
    | error x => exact .inl ⟨e, mb, x, rfl, hb, by simp [encodeDigits, hl, hb]⟩
    | ok biased => exact .inr ⟨e, mb, biased, rfl, hb, by simp [encodeDigits, hl, hb]⟩

/-- An accepted biased exponent is `e + B` and fits its field (41_encoder.md rule R98). -/
theorem biasedExponent_ok (k : ClassConst) (e : Int) (biased : Nat) (h : biasedExponent k e = .ok biased) :
    (biased : Int) = e + k.bias ∧ biased < 2 ^ k.expWidth := by
  simp only [biasedExponent] at h
  split at h
  · cases h
  split at h
  · cases h
  · cases h
    have h2 : ((2 ^ k.expWidth : Nat) : Int) = 2 ^ k.expWidth := by push_cast; rfl
    constructor <;> omega

end Sys2Proof.Machine
end

