-- ==== Sys2Proof/Laws/State.lean ====
section
/-! SUPPORT. What each register reads after each update of the state: one lemma per field per update. -/

namespace Sys2Proof.Machine

/-! ### tick -/

@[simp] theorem tick_ctrl (s : State) : (tick s).ctrl = s.ctrl := rfl
@[simp] theorem tick_reqPrec (s : State) : (tick s).reqPrec = s.reqPrec := rfl
@[simp] theorem tick_reqSign (s : State) : (tick s).reqSign = s.reqSign := rfl
@[simp] theorem tick_reqCoeff (s : State) : (tick s).reqCoeff = s.reqCoeff := rfl
@[simp] theorem tick_reqExp (s : State) : (tick s).reqExp = s.reqExp := rfl
@[simp] theorem tick_rspValid (s : State) : (tick s).rspValid = s.rspValid := rfl
@[simp] theorem tick_rspStatus (s : State) : (tick s).rspStatus = s.rspStatus := rfl
@[simp] theorem tick_rspLen (s : State) : (tick s).rspLen = s.rspLen := rfl
@[simp] theorem tick_rspBits (s : State) : (tick s).rspBits = s.rspBits := rfl
@[simp] theorem tick_resetSeen (s : State) : (tick s).resetSeen = s.resetSeen := rfl
@[simp] theorem tick_inputs (s : State) : (tick s).inputs = s.inputs.tail := rfl
@[simp] theorem tick_draws (s : State) : (tick s).draws = s.draws := rfl

/-! ### setCtrl -/

@[simp] theorem setCtrl_ctrl (c : Ctrl) (s : State) : (setCtrl c s).ctrl = c := rfl
@[simp] theorem setCtrl_reqPrec (c : Ctrl) (s : State) : (setCtrl c s).reqPrec = s.reqPrec := rfl
@[simp] theorem setCtrl_reqSign (c : Ctrl) (s : State) : (setCtrl c s).reqSign = s.reqSign := rfl
@[simp] theorem setCtrl_reqCoeff (c : Ctrl) (s : State) : (setCtrl c s).reqCoeff = s.reqCoeff := rfl
@[simp] theorem setCtrl_reqExp (c : Ctrl) (s : State) : (setCtrl c s).reqExp = s.reqExp := rfl
@[simp] theorem setCtrl_rspValid (c : Ctrl) (s : State) : (setCtrl c s).rspValid = s.rspValid := rfl
@[simp] theorem setCtrl_rspStatus (c : Ctrl) (s : State) : (setCtrl c s).rspStatus = s.rspStatus := rfl
@[simp] theorem setCtrl_rspLen (c : Ctrl) (s : State) : (setCtrl c s).rspLen = s.rspLen := rfl
@[simp] theorem setCtrl_rspBits (c : Ctrl) (s : State) : (setCtrl c s).rspBits = s.rspBits := rfl
@[simp] theorem setCtrl_resetSeen (c : Ctrl) (s : State) : (setCtrl c s).resetSeen = s.resetSeen := rfl
@[simp] theorem setCtrl_inputs (c : Ctrl) (s : State) : (setCtrl c s).inputs = s.inputs := rfl
@[simp] theorem setCtrl_draws (c : Ctrl) (s : State) : (setCtrl c s).draws = s.draws := rfl

/-! ### writeResponse -/

@[simp] theorem writeResponse_ctrl (v : Bool) (r : Response) (s : State) : (writeResponse v r s).ctrl = s.ctrl := rfl
@[simp] theorem writeResponse_reqPrec (v : Bool) (r : Response) (s : State) : (writeResponse v r s).reqPrec = s.reqPrec := rfl
@[simp] theorem writeResponse_reqSign (v : Bool) (r : Response) (s : State) : (writeResponse v r s).reqSign = s.reqSign := rfl
@[simp] theorem writeResponse_reqCoeff (v : Bool) (r : Response) (s : State) : (writeResponse v r s).reqCoeff = s.reqCoeff := rfl
@[simp] theorem writeResponse_reqExp (v : Bool) (r : Response) (s : State) : (writeResponse v r s).reqExp = s.reqExp := rfl
@[simp] theorem writeResponse_rspValid (v : Bool) (r : Response) (s : State) : (writeResponse v r s).rspValid = v := rfl
@[simp] theorem writeResponse_rspStatus (v : Bool) (r : Response) (s : State) : (writeResponse v r s).rspStatus = r.status := rfl
@[simp] theorem writeResponse_rspLen (v : Bool) (r : Response) (s : State) : (writeResponse v r s).rspLen = r.len := rfl
@[simp] theorem writeResponse_rspBits (v : Bool) (r : Response) (s : State) : (writeResponse v r s).rspBits = r.bits := rfl
@[simp] theorem writeResponse_resetSeen (v : Bool) (r : Response) (s : State) : (writeResponse v r s).resetSeen = s.resetSeen := rfl
@[simp] theorem writeResponse_inputs (v : Bool) (r : Response) (s : State) : (writeResponse v r s).inputs = s.inputs := rfl
@[simp] theorem writeResponse_draws (v : Bool) (r : Response) (s : State) : (writeResponse v r s).draws = s.draws := rfl

/-! ### writeCapture -/

@[simp] theorem writeCapture_ctrl (r : Request) (s : State) : (writeCapture r s).ctrl = s.ctrl := rfl
@[simp] theorem writeCapture_reqPrec (r : Request) (s : State) : (writeCapture r s).reqPrec = r.prec := rfl
@[simp] theorem writeCapture_reqSign (r : Request) (s : State) : (writeCapture r s).reqSign = r.sign := rfl
@[simp] theorem writeCapture_reqCoeff (r : Request) (s : State) : (writeCapture r s).reqCoeff = r.coeff := rfl
@[simp] theorem writeCapture_reqExp (r : Request) (s : State) : (writeCapture r s).reqExp = r.exp := rfl
@[simp] theorem writeCapture_rspValid (r : Request) (s : State) : (writeCapture r s).rspValid = s.rspValid := rfl
@[simp] theorem writeCapture_rspStatus (r : Request) (s : State) : (writeCapture r s).rspStatus = s.rspStatus := rfl
@[simp] theorem writeCapture_rspLen (r : Request) (s : State) : (writeCapture r s).rspLen = s.rspLen := rfl
@[simp] theorem writeCapture_rspBits (r : Request) (s : State) : (writeCapture r s).rspBits = s.rspBits := rfl
@[simp] theorem writeCapture_resetSeen (r : Request) (s : State) : (writeCapture r s).resetSeen = s.resetSeen := rfl
@[simp] theorem writeCapture_inputs (r : Request) (s : State) : (writeCapture r s).inputs = s.inputs := rfl
@[simp] theorem writeCapture_draws (r : Request) (s : State) : (writeCapture r s).draws = s.draws := rfl

/-! ### resetRegisters -/

@[simp] theorem resetRegisters_ctrl (s : State) : (resetRegisters s).ctrl = .idle := rfl
@[simp] theorem resetRegisters_reqPrec (s : State) : (resetRegisters s).reqPrec = Config.freePrec s.draws := rfl
@[simp] theorem resetRegisters_reqSign (s : State) : (resetRegisters s).reqSign = Config.freeSign s.draws := rfl
@[simp] theorem resetRegisters_reqCoeff (s : State) : (resetRegisters s).reqCoeff = Config.freeCoeff s.draws := rfl
@[simp] theorem resetRegisters_reqExp (s : State) : (resetRegisters s).reqExp = Config.freeExp s.draws := rfl
@[simp] theorem resetRegisters_rspValid (s : State) : (resetRegisters s).rspValid = false := rfl
@[simp] theorem resetRegisters_rspStatus (s : State) : (resetRegisters s).rspStatus = 0#3 := rfl
@[simp] theorem resetRegisters_rspLen (s : State) : (resetRegisters s).rspLen = 0#7 := rfl
@[simp] theorem resetRegisters_rspBits (s : State) : (resetRegisters s).rspBits = 0#80 := rfl
@[simp] theorem resetRegisters_resetSeen (s : State) : (resetRegisters s).resetSeen = true := rfl
@[simp] theorem resetRegisters_inputs (s : State) : (resetRegisters s).inputs = s.inputs := rfl
@[simp] theorem resetRegisters_draws (s : State) : (resetRegisters s).draws = s.draws + 1 := rfl

/-! ### The request in flight -/

@[simp] theorem captured_tick (s : State) : captured (tick s) = captured s := rfl
@[simp] theorem captured_setCtrl (c : Ctrl) (s : State) : captured (setCtrl c s) = captured s := rfl
@[simp] theorem captured_writeResponse (v : Bool) (r : Response) (s : State) :
    captured (writeResponse v r s) = captured s := rfl
@[simp] theorem captured_writeCapture (r : Request) (s : State) : captured (writeCapture r s) = r := rfl
@[simp] theorem captured_resetRegisters (s : State) : captured (resetRegisters s) = freeRequest s.draws := rfl

end Sys2Proof.Machine
end

