-- ==== Sys2Proof/Laws/Ops.lean ====
section
/-! SUPPORT. Everything each shared operation over the registers does, said once. -/

namespace Sys2Proof.Machine

/-- Acceptance: the fields are captured, the block is `BUSY`, the result registers are cleared, nothing else changes. -/
theorem acceptRequest_eq (r : Request) (s : State) :
    acceptRequest r s =
      { s with ctrl := .busy, reqPrec := r.prec, reqSign := r.sign, reqCoeff := r.coeff, reqExp := r.exp,
               rspValid := false, rspStatus := 0#3, rspLen := 0#7, rspBits := 0#80 } := rfl

/-- Error completion: the result registers and `STATE`, nothing else. -/
theorem completeWithError_eq (x : ErrorClass) (s : State) :
    completeWithError x s =
      { s with ctrl := .idle, rspValid := true, rspStatus := errorCode x, rspLen := 0#7, rspBits := 0#80 } := rfl

/-- Completion with an output: the result registers and `STATE`, nothing else. -/
theorem completeWithOutput_eq (prec : BitVec 8) (str : BitStr) (s : State) :
    completeWithOutput prec str s =
      { s with ctrl := .idle, rspValid := true, rspStatus := 0#3, rspLen := BitVec.ofNat 7 prec.toNat,
               rspBits := vec80 str } := rfl

/-- Completion, whatever the outcome of ENCODE: the response of that outcome, and `STATE`. -/
theorem completeWith_eq (prec : BitVec 8) (r : Except ErrorClass BitStr) (s : State) :
    completeWith prec r s =
      { s with ctrl := .idle, rspValid := true, rspStatus := (responseOf prec r).status,
               rspLen := (responseOf prec r).len, rspBits := (responseOf prec r).bits } := by
  cases r <;> rfl

/-- The reset edge: the registers of rule R151, and the sampled input is behind. -/
theorem resetEdge_eq (s : State) : resetEdge s = tick (resetRegisters s) := rfl

/-- Placing a request makes the next edge its completing edge. -/
theorem edgeKind_placeRequest (r : Request) (s : State) : edgeKind (placeRequest r s) = .complete := by
  simp [edgeKind, placeRequest, acceptRequest, sampled, quietEdge]

theorem captured_placeRequest (r : Request) (s : State) : captured (placeRequest r s) = r := rfl

end Sys2Proof.Machine
end

