-- ==== Sys2Proof/Laws/PerInstr.lean ====
section
/-! SUPPORT. A statement about every instruction as a term, one lemma per constructor. -/

namespace Sys2Proof.Laws.PrecCode

/-- The request of an instruction has a legal precision code and is read back as that instruction, with every operand. -/
def Statement (i : Instr) : Prop :=
  (encodeRequest i).prec ∈ [0x10#8, 0x20#8, 0x40#8, 0x50#8] ∧ decodeRequest (encodeRequest i) = .ok i

theorem encH (sign : Bool) (coeff : Nat) (exp : Int) : Statement (.encH sign coeff exp) := by
  simp [Statement, encodeRequest, decodeRequest]

theorem encS (sign : Bool) (coeff : Nat) (exp : Int) : Statement (.encS sign coeff exp) := by
  simp [Statement, encodeRequest, decodeRequest]

theorem encD (sign : Bool) (coeff : Nat) (exp : Int) : Statement (.encD sign coeff exp) := by
  simp [Statement, encodeRequest, decodeRequest]

theorem encX (sign : Bool) (coeff : Nat) (exp : Int) : Statement (.encX sign coeff exp) := by
  simp [Statement, encodeRequest, decodeRequest]

end Sys2Proof.Laws.PrecCode
end

