-- ==== Sys2Proof/Laws/Step.lean ====
section
/-! SUPPORT. What an instruction and what an edge can do, said once: later proofs cite these instead of unfolding `step`. -/

namespace Sys2Proof.Machine

/-- Each meaning is a completion with the outcome of ENCODE on the instruction's request. -/
theorem exec_eq (i : Instr) (s : State) :
    exec i s = .next (completeWith (encodeRequest i).prec (encodeOf (encodeRequest i)) s) := by
  cases i <;> rfl

theorem step_of_reset (s : State) (h : edgeKind s = .reset) : step s = .next (resetEdge s) := by
  simp [step, h]

theorem step_of_unbooted (s : State) (h : edgeKind s = .unbooted) :
    step s = .refused .requestBeforeFirstReset := by
  simp [step, h]

theorem step_of_accept (s : State) (h : edgeKind s = .accept) : step s = .next (acceptEdge s) := by
  simp [step, h]

theorem step_of_hold (s : State) (h : edgeKind s = .hold) : step s = .next (tick s) := by
  simp [step, h]

/-- A completing edge writes the response of ENCODE on the request in flight, legal or not. -/
theorem step_of_complete (s : State) (h : edgeKind s = .complete) :
    step s = .next (completeWith s.reqPrec (encodeOf (captured s)) (tick s)) := by
  simp only [step, h, completeEdge, instrInFlight]
  cases hd : decodeRequest (captured s) with
  | ok i =>
    have := decodeRequest_ok_inv _ _ hd
    simp only [exec_eq, this]
    rfl
  | error x =>
    have hp := precClass_illegal _ (decodeRequest_error_inv _ _ hd)
    simp only [captured] at hp
    simp [completeIllegal, encodeOf, captured, encodeFn, hp, completeWith]

theorem edgeKind_of_acceptsNext (s : State) (h : AcceptsNext s) : edgeKind s = .accept := by
  obtain ⟨hr, hc, hrst, hv⟩ := h
  simp [edgeKind, hr, hc, hrst, hv]

theorem edgeKind_of_completesNext (s : State) (h : CompletesNext s) : edgeKind s = .complete := by
  obtain ⟨hr, hc, hrst, hd⟩ := h
  simp [edgeKind, hr, hc, hrst, hd]

/-- ENCODE at the code of a class has passed the precision check. -/
@[simp] theorem encodeFn_classCode (p : PrecClass) (sign : Bool) (c : Nat) (q : Int) :
    encodeFn (classCode p) sign c q = encodeClass p sign c q := by
  cases p <;> rfl

/-- The request of the instruction of a class. -/
@[simp] theorem encodeRequest_instrOf (p : PrecClass) (sign : Bool) (c : Nat) (q : Int) :
    encodeRequest (instrOf p sign c q) = { prec := classCode p, sign := sign, coeff := c, exp := q } := by
  cases p <;> rfl

/-- Whatever the outcome of ENCODE, its response written is the whole effect of an instruction. -/
theorem runsTo_iff (i : Instr) (s : State) (status : BitVec 3) (len : BitVec 7) (bits : BitVec 80) :
    RunsTo i s status len bits ↔
      responseOf (encodeRequest i).prec (encodeOf (encodeRequest i)) = { status := status, len := len, bits := bits } := by
  simp only [RunsTo, exec_eq, completeWith_eq]
  constructor
  · intro h
    have h' := Host.Outcome.next.inj h
    have h1 := congrArg State.rspStatus h'
    have h2 := congrArg State.rspLen h'
    have h3 := congrArg State.rspBits h'
    simp only at h1 h2 h3
    rw [← h1, ← h2, ← h3]
  · intro h
    rw [h]

/-- Every edge is one of the five kinds. -/
theorem edgeKind_cases (s : State) :
    edgeKind s = .reset ∨ edgeKind s = .unbooted ∨ edgeKind s = .accept ∨ edgeKind s = .complete ∨
      edgeKind s = .hold := by
  cases edgeKind s <;> simp

/-- Everything a step that goes on can do. -/
theorem step_next_inv (s t : State) (h : step s = .next t) :
    (edgeKind s = .reset ∧ t = resetEdge s) ∨ (edgeKind s = .accept ∧ t = acceptEdge s) ∨
    (edgeKind s = .complete ∧ t = completeWith s.reqPrec (encodeOf (captured s)) (tick s)) ∨
    (edgeKind s = .hold ∧ t = tick s) := by
  rcases edgeKind_cases s with hk | hk | hk | hk | hk
  · rw [step_of_reset s hk] at h; cases h; exact .inl ⟨hk, rfl⟩
  · rw [step_of_unbooted s hk] at h; cases h
  · rw [step_of_accept s hk] at h; cases h; exact .inr (.inl ⟨hk, rfl⟩)
  · rw [step_of_complete s hk] at h; cases h; exact .inr (.inr (.inl ⟨hk, rfl⟩))
  · rw [step_of_hold s hk] at h; cases h; exact .inr (.inr (.inr ⟨hk, rfl⟩))

/-- `runEdges` is the host's own run of the machine. -/
theorem runEdges_eq_run (n : Nat) (s : State) : runEdges n s = Host.Core.run Sys2Proof.core n s := by
  induction n generalizing s with
  | zero => rfl
  | succ n ih =>
    simp only [runEdges, Host.Core.run]
    rw [show Sys2Proof.core.step s = step s from rfl]
    cases step s with
    | next t => exact ih t
    | fault r => rfl
    | refused r => rfl

end Sys2Proof.Machine
end

