-- ==== Sys2Proof/Tests/Slice0.lean ====
section
/-! SUPPORT. Tests of the model against the spec's own vectors, and a witness for the hypotheses of each statement. -/

namespace Sys2Proof.Tests

open Sys2Proof.Machine

/-! ## Well-formedness refuses what the ports cannot carry -/

/-- Ports of 8 bits each. -/
def ports8 : PortWidths := { coeffW := 8, expW := 8 }

theorem test_wf_accepts_bounds :
    Instr.wf ports8 (.encH true 255 (-128)) = true ∧ Instr.wf ports8 (.encX false 0 127) = true := by decide

theorem test_wf_refuses_wide_coeff : Instr.wf ports8 (.encH false 256 0) = false := by decide

theorem test_wf_refuses_large_exp : Instr.wf ports8 (.encS false 1 128) = false := by decide

theorem test_wf_refuses_small_exp : Instr.wf ports8 (.encD false 1 (-129)) = false := by decide

theorem test_fits_refuses_wide_coeff : Request.fits ports8 { prec := 0x10#8, sign := false, coeff := 256, exp := 0 } = false := by
  decide

/-! ## Decoding: port words written out from 30_encoding.md rule R58 and `req_exp` in two's complement (rule R57) -/

theorem test_decode_encH :
    decode ports8 { prec := 0b00010000#8, sign := 0b1#1, coeff := 0b00011001#8, exp := 0b11111111#8 } =
      .ok (.encH true 25 (-1)) := by decide

theorem test_decode_encS :
    decode ports8 { prec := 0b00100000#8, sign := 0b0#1, coeff := 0b11111111#8, exp := 0b10000000#8 } =
      .ok (.encS false 255 (-128)) := by decide

theorem test_decode_encD :
    decode ports8 { prec := 0b01000000#8, sign := 0b0#1, coeff := 0b00000001#8, exp := 0b01111111#8 } =
      .ok (.encD false 1 127) := by decide

theorem test_decode_encX :
    decode ports8 { prec := 0b01010000#8, sign := 0b0#1, coeff := 0b00000000#8, exp := 0b00000000#8 } =
      .ok (.encX false 0 0) := by decide

/-- 95_test_vectors.md §2.4: 0x16 is not the decimal width 16. -/
theorem test_decode_refuses_0x16 :
    decode ports8 { prec := 0x16#8, sign := 0#1, coeff := 1#8, exp := 0#8 } = .error (.illegalPrecision 0x16#8) := by
  decide

theorem test_decodeTableWord :
    decodeTableWord 8 0x10 = some (.encH false 0 0) ∧ decodeTableWord 8 0x50 = some (.encX false 0 0) ∧
      decodeTableWord 8 0x30 = none := by decide

theorem test_encode_encH :
    encode ports8 (.encH true 25 (-1)) =
      { prec := 0b00010000#8, sign := 0b1#1, coeff := 0b00011001#8, exp := 0b11111111#8 } := by decide

/-! ## The converters (95_test_vectors.md §2.1, §2.2) -/

theorem test_radix_5 : radix 5 = [true, false, true] := by decide

theorem test_frac_one_third :
    frac 1 3 11 = [false, true, false, true, false, true, false, true, false, true, false] := by decide

/-- 1/10 at 11 digits, the example of 40_converters.md rule R78. -/
theorem test_frac_one_tenth :
    frac 1 10 11 = [false, false, false, true, true, false, false, true, true, false, false] := by decide

/-! ## The four operations (95_test_vectors.md §2.5 to §2.8) -/

/-- The response registers after an instruction's meaning on the reset state. -/
def responseAfter (i : Instr) : BitVec 3 × BitVec 7 × BitVec 80 :=
  match exec i State.reset with
  | .next t => (t.rspStatus, t.rspLen, t.rspBits)
  | _ => (7#3, 0#7, 0#80)

theorem test_encH_last_bit_lowered : responseAfter (.encH false 1027 0) = (0#3, 16#7, 0x6402#80) := by decide

theorem test_encH_below_range : responseAfter (.encH false 244140625 (-12)) = (4#3, 0#7, 0#80) := by decide

theorem test_encS_tenth : responseAfter (.encS false 1 (-1)) = (0#3, 32#7, 0x3DCCCCC8#80) := by decide

theorem test_encS_last_digit_only : responseAfter (.encS false 1 (-7)) = (0#3, 32#7, 0x33800000#80) := by decide

theorem test_encD_negative : responseAfter (.encD true 123456 (-3)) = (0#3, 64#7, 0xC05EDD2F1A9FBE77#80) := by
  decide +kernel

theorem test_encD_1e300 : responseAfter (.encD false 1 300) = (0#3, 64#7, 0x7E37E43C8800759B#80) := by
  decide +kernel

theorem test_encX_tenth : responseAfter (.encX false 1 (-1)) = (0#3, 80#7, 0x3FFBCCCCCCCCCCCCCCC8#80) := by
  decide +kernel

theorem test_encX_minus_two : responseAfter (.encX true 2 0) = (0#3, 80#7, 0xC0008000000000000000#80) := by
  decide +kernel

/-! ## Steps -/

/-- The coming edges of a test: reset, no request, or a request, with the draw `done`. -/
def edgeOf (rst valid : Bool) (r : Request) (done : Bool) : EdgeInput :=
  { rst := rst, reqValid := valid, req := r, done := done }

/-- `ENC.H 1.5`, and an illegal code. -/
def reqHalf : Request := { prec := 0x10#8, sign := false, coeff := 15, exp := -1 }
def reqIllegal : Request := { prec := 0x30#8, sign := false, coeff := 1, exp := 400 }

/-- Right after reset, with the given coming edges. -/
def readyWith (es : List EdgeInput) : State := { State.reset with inputs := es }

/-- A request in flight, with the given coming edges. -/
def busyWith (r : Request) (es : List EdgeInput) : State :=
  { acceptRequest r State.reset with inputs := es }

/-- A finished request and its response 0x3E00, with the given coming edges. -/
def answeredWith (es : List EdgeInput) : State :=
  { State.reset with rspValid := true, rspLen := 16#7, rspBits := 0x3E00#80, inputs := es }

/-- A state before the first reset edge. -/
def unbootedWith (es : List EdgeInput) : State :=
  { ctrl := .busy, reqPrec := 0x33#8, reqSign := true, reqCoeff := 7, reqExp := 5, rspValid := true, rspStatus := 6#3,
    rspLen := 5#7, rspBits := 9#80, resetSeen := false, inputs := es, draws := 0 }

/-- The registers a test looks at after one step. -/
def shownAfter (s : State) : Option (Ctrl × Bool × BitVec 3 × BitVec 80) :=
  match step s with
  | .next t => some (t.ctrl, t.rspValid, t.rspStatus, t.rspBits)
  | _ => none

/-- A table word's operands are 0, so what it meets is the zero check (41_encoder.md rule R92). -/
theorem test_step_runs_fetch_word :
    shownAfter (State.reset.withFetchWord 8 0x40) = some (.idle, true, 2#3, 0#80) := by decide

/-- 95_test_vectors.md P1: a draw of 0 leaves the request in flight. -/
theorem test_step_holds : shownAfter (busyWith reqHalf [edgeOf false false reqHalf false]) = some (.busy, false, 0#3, 0#80) := by
  decide

theorem test_step_completes :
    shownAfter (busyWith reqHalf [edgeOf false false reqHalf true]) = some (.idle, true, 0#3, 0x3E00#80) := by decide

/-- 95_test_vectors.md P2, edge 3. -/
theorem test_step_completes_illegal :
    shownAfter (busyWith reqIllegal [edgeOf false false reqHalf true]) = some (.idle, true, 1#3, 0#80) := by decide

/-- 95_test_vectors.md P3, edge 5. -/
theorem test_step_reset_aborts :
    shownAfter (busyWith reqHalf [edgeOf true true reqHalf true]) = some (.idle, false, 0#3, 0#80) := by decide

/-- 70_reset_and_hazards.md rule R158: acceptance clears the response. -/
theorem test_step_accept_clears :
    shownAfter (answeredWith [edgeOf false true reqHalf true]) = some (.busy, false, 0#3, 0#80) := by decide

/-! ## Assembler and requester -/

/-- 30_encoding.md rule R63: `.5` is a literal, `5.` is not. -/
theorem test_parse_no_int_digits :
    (parseLiteral ['.', '5']).map (literalRequest 0x10#8) =
        some { prec := 0x10#8, sign := false, coeff := 5, exp := -1 } ∧
      parseLiteral ['5', '.'] = none := by decide

theorem test_parse_line_raw :
    (parseLine ['E', 'N', 'C', ' ', '0', 'x', '2', '0', ',', ' ', '1', ',', ' ', '0', ',', ' ', '-', '3']).map lowerStmt =
      some (.present { prec := 0x20#8, sign := true, coeff := 0, exp := -3 }) := by decide

/-- 30_encoding.md rule R66 calls the operand `<hex bits>`; without `0x` it is read so (log entry 11). -/
theorem test_parse_check_bits :
    parseWords [['C', 'H', 'E', 'C', 'K'], ['O', 'K'], ['0', 'x', '3', 'C', '0', '0']] = some (.check 0#3 0x3C00#80) ∧
      parseWords [['C', 'H', 'E', 'C', 'K'], ['O', 'K'], ['3', 'C', '0', '0']] = some (.check 0#3 0x3C00#80) := by decide

/-- A response in memory, in both byte orders. -/
theorem test_wrapperBytes :
    wrapperBytes .little { status := 0#3, len := 16#7, bits := 0x3C00#80 } = [0x00#8, 0x3C#8] ∧
      wrapperBytes .big { status := 0#3, len := 16#7, bits := 0x3C00#80 } = [0x3C#8, 0x00#8] := by decide

/-! ## Witnesses: the hypotheses of each statement hold together somewhere -/

theorem witness_ResetEdgeSetsRegisters :
    (sampled (busyWith reqHalf [edgeOf true true reqHalf true, edgeOf false true reqHalf true])).rst = true ∧
    (sampled (resetEdge (busyWith reqHalf [edgeOf true true reqHalf true, edgeOf false true reqHalf true]))).rst = false ∧
    (sampled (resetEdge (busyWith reqHalf [edgeOf true true reqHalf true, edgeOf false true reqHalf true]))).reqValid =
      true := ⟨rfl, rfl, rfl⟩

theorem witness_ResetAbortsRequestSilently :
    (sampled (busyWith reqHalf [edgeOf true true reqHalf true, edgeOf false false reqHalf true])).rst = true ∧
    NoRequestWithin 3 (busyWith reqHalf [edgeOf true true reqHalf true, edgeOf false false reqHalf true]).inputs.tail := by
  refine ⟨rfl, ?_⟩
  unfold NoRequestWithin
  decide

/-- One state for each branch of the cycle step, and a `BUSY` state two edges from its completion. -/
theorem witness_EdgeFollowsCycleStep :
    (busyWith reqHalf [edgeOf true true reqHalf true]).resetSeen = true ∧
    edgeKind (busyWith reqHalf [edgeOf true true reqHalf true]) = .reset ∧
    edgeKind (readyWith [edgeOf false true reqHalf true]) = .accept ∧
    edgeKind (busyWith reqHalf [edgeOf false true reqHalf true]) = .complete ∧
    edgeKind (busyWith reqHalf [edgeOf false true reqHalf false]) = .hold ∧
    edgesToDone (busyWith reqHalf [edgeOf false true reqHalf false]).inputs = 2 ∧
    NoResetWithin 2 (busyWith reqHalf [edgeOf false true reqHalf false]).inputs := by
  refine ⟨rfl, rfl, rfl, rfl, rfl, rfl, ?_⟩
  unfold NoResetWithin
  decide

theorem witness_CompletingStepRunsDecodedInstr :
    CompletesNext (busyWith (encodeRequest (.encD true 255 (-128))) [edgeOf false false reqHalf true]) ∧
    captured (busyWith (encodeRequest (.encD true 255 (-128))) [edgeOf false false reqHalf true]) =
      assembleRequest ports8 (encode ports8 (.encD true 255 (-128))) ∧
    decode ports8 (encode ports8 (.encD true 255 (-128))) = .ok (.encD true 255 (-128)) ∧
    Instr.wf ports8 (.encD true 255 (-128)) = true :=
  ⟨⟨rfl, rfl, rfl, rfl⟩, by decide, by decide, by decide⟩

theorem witness_RequestBeforeFirstResetIsRefused :
    (unbootedWith []).resetSeen = false ∧
    (sampled (unbootedWith [edgeOf false true reqHalf true])).rst = false ∧
    (sampled (unbootedWith [edgeOf false true reqHalf true])).reqValid = true ∧
    (sampled (unbootedWith [edgeOf true true reqHalf true])).rst = true ∧
    (sampled (unbootedWith [])).rst = false ∧ (sampled (unbootedWith [])).reqValid = false :=
  ⟨rfl, rfl, rfl, rfl, rfl, rfl⟩

/-- The invariant at a state with a response, whose next edge accepts a request. -/
theorem answered_inv (es : List EdgeInput) : Inv (answeredWith es) := by
  intro _
  exact ⟨by simp [answeredWith], by simp [answeredWith], by simp [answeredWith, State.reset],
    by simp [answeredWith, State.reset]⟩

/-- The invariant while a request is in flight. -/
theorem busy_inv (r : Request) (es : List EdgeInput) : Inv (busyWith r es) := by
  intro _
  exact ⟨fun _ => ⟨rfl, rfl, rfl⟩, (fun h => by cases h), (fun h => by cases h), fun _ => rfl⟩

theorem witness_StepKeepsResultRegisterInvariant :
    Inv (answeredWith [edgeOf false true reqHalf true]) ∧
    step (answeredWith [edgeOf false true reqHalf true]) =
      .next (acceptEdge (answeredWith [edgeOf false true reqHalf true])) :=
  ⟨answered_inv _, rfl⟩

theorem witness_StepKeepsRequestInFlightPresentable :
    FitsPorts ports8 (busyWith reqHalf [edgeOf false true reqHalf false]) ∧
    step (busyWith reqHalf [edgeOf false true reqHalf false]) =
      .next (tick (busyWith reqHalf [edgeOf false true reqHalf false])) := by
  refine ⟨⟨?_, fun _ => by decide⟩, rfl⟩
  show ∀ e ∈ [edgeOf false true reqHalf false], e.req.fits ports8 = true
  decide

theorem witness_ReservedStatusNeverShown :
    (answeredWith [edgeOf false false reqHalf true]).resetSeen = true ∧
    Inv (answeredWith [edgeOf false false reqHalf true]) ∧
    step (answeredWith [edgeOf false false reqHalf true]) =
      .next (tick (answeredWith [edgeOf false false reqHalf true])) ∧
    (outputPorts (unbootedWith [])).rspValid = true ∧ 5 ≤ (outputPorts (unbootedWith [])).rspStatus.toNat :=
  ⟨rfl, answered_inv _, rfl, rfl, by decide⟩

theorem witness_DecodeOfEncodeIsInstr :
    Instr.wf ports8 (.encS true 255 (-128)) = true ∧ Instr.wf { coeffW := 0, expW := 0 } (.encX false 0 0) = true := by
  decide

theorem witness_EncodeOfDecodeIsBits :
    decode ports8 { prec := 0x20#8, sign := 1#1, coeff := 255#8, exp := 128#8 } = .ok (.encS true 255 (-128)) := by decide

/-- One code for each row, and illegal codes at both ends and beside a row. -/
theorem witness_PrecCodeSelectsOperation :
    (requestBits ports8 reqHalf).prec = 0b00010000#8 ∧
    (encode ports8 (.encS false 1 0)).prec = 0b00100000#8 ∧ (encode ports8 (.encD false 1 0)).prec = 0b01000000#8 ∧
    (encode ports8 (.encX false 1 0)).prec = 0b01010000#8 ∧
    IllegalCode 0x00#8 ∧ IllegalCode 0x11#8 ∧ IllegalCode 0xFF#8 := by
  simp [IllegalCode, requestBits, encode, encodeRequest, reqHalf]

theorem witness_IllegalCodeCompletesWithCfgErr :
    AcceptsNext (readyWith [edgeOf false true reqIllegal true]) ∧
    IllegalCode (sampled (readyWith [edgeOf false true reqIllegal true])).req.prec ∧
    CompletesNext (busyWith reqIllegal [edgeOf false false reqHalf true]) ∧
    IllegalCode (busyWith reqIllegal [edgeOf false false reqHalf true]).reqPrec := by
  refine ⟨⟨rfl, rfl, rfl, rfl⟩, ?_, ⟨rfl, rfl, rfl, rfl⟩, ?_⟩ <;> unfold IllegalCode <;> decide

theorem witness_RadixIsExactNumeral : 1 ≤ 1 ∧ radix 1 = [true] := by decide

/-- `F < D` at `D = 1`, and the first and the last digit index. -/
theorem witness_FracHasClosedForm : 0 < 1 ∧ 1 < 10 ∧ 1 ≤ 1 ∧ 1 ≤ 11 ∧ 11 ≤ 11 := by decide

/-- A fraction whose remainder reaches 0 early, and `F = 0`. -/
theorem witness_FracMayStopAtZeroRemainder : 3 < 4 ∧ fracStopping 4 11 3 = [true, true] ∧ 0 < 1 := by decide

theorem witness_MagnitudeSplitIsExact : (0 : Int) ≤ 0 ∧ (-1 : Int) < 0 := by decide

theorem witness_ExponentFieldIsPaddedNumeral :
    0 < 2 ^ (classConst .p16).expWidth ∧ 31 < 2 ^ (classConst .p16).expWidth := by decide

/-- The narrowest fraction, an all-ones `M`, and a mantissa of exactly `W_F` bits. -/
theorem witness_GuardBitReplacesLastBit :
    1 ≤ 1 ∧ [true, true] = (List.range (1 + 1)).map (fun i => List.getD [true, true] i false) ∧
    [true, true] = List.replicate (1 + 1) true ∧ [true].length ≤ 1 := by decide

/-- 1.5 and 1.50 (41_encoder.md rule R104). -/
theorem witness_SpellingDoesNotChangeResponse : magnitude 15 (-1) = magnitude 150 (-2) := by
  norm_num [magnitude]

/-- Below, at and above each bound of precision 16: 2^-12, 2^-11, 0.999, 1, 131071, 131072. -/
theorem witness_StatusFollowsMagnitude :
    0 < 48828125 ∧ magnitude 244140625 (-12) < leastMagnitude .p16 ∧ leastMagnitude .p16 ≤ magnitude 48828125 (-11) ∧
    magnitude 999 (-3) < 1 ∧ leastMagnitude .p16 ≤ magnitude 999 (-3) ∧ 1 ≤ magnitude 1 0 ∧
    magnitude 131071 0 < overflowMagnitude .p16 ∧ overflowMagnitude .p16 ≤ magnitude 131072 0 := by
  norm_num [magnitude, leastMagnitude, overflowMagnitude, fracDigits, classConst, zpow_neg, zpow_natCast]

/-- The two ends of the top binade at precision 16. -/
theorem witness_TopBinadeGivesAllOnesExponent :
    0 < 65536 ∧ 2 ^ (2 ^ (classConst .p16).expWidth - (classConst .p16).bias - 1) ≤ magnitude 65536 0 ∧
    magnitude 131071 0 < 2 ^ (2 ^ (classConst .p16).expWidth - (classConst .p16).bias) := by
  norm_num [magnitude, classConst]

/-- An input in each of the three parts of the range, at its lower end: 2^-11, 1/2, 1; and the last value below 1 of
three digits. -/
theorem witness_OkResultHasClosedForm :
    leastMagnitude .p16 ≤ magnitude 48828125 (-11) ∧ magnitude 48828125 (-11) < 1 / 2 ∧
    1 / 2 ≤ magnitude 5 (-1) ∧ magnitude 999 (-3) < 1 ∧ 1 ≤ magnitude 1 0 ∧
    magnitude 1 0 < overflowMagnitude .p16 ∧ leastMagnitude .p16 ≤ magnitude 5 (-1) := by
  norm_num [magnitude, leastMagnitude, overflowMagnitude, fracDigits, classConst, zpow_neg, zpow_natCast]

theorem witness_FirstErrorInPriorityWins :
    IllegalCode 0x30#8 ∧ 0 < 1 ∧ magInt 1 (-4) = 0 ∧
    find1 (frac (magFrac 1 (-4)) (magDen (-4)) (fracDigits .p16)) = none := by
  refine ⟨?_, by decide, by decide, by decide⟩
  unfold IllegalCode
  decide

theorem witness_EncHEncodesHalfPrecision :
    (encode ports8 (.encH false 1 0)).prec = 0x10#8 ∧
    magnitude 244140625 (-12) < 1 / 2 ^ 11 ∧ 1 / 2 ^ 11 ≤ magnitude 48828125 (-11) ∧
    magnitude 131071 0 < 131072 ∧ 131072 ≤ magnitude 131072 0 := by
  refine ⟨rfl, ?_⟩
  norm_num [magnitude, zpow_neg, zpow_natCast]

theorem witness_EncSEncodesSinglePrecision :
    (encode ports8 (.encS false 1 0)).prec = 0x20#8 ∧
    magnitude 298023223876953125 (-25) < 1 / 2 ^ 24 ∧ 1 / 2 ^ 24 ≤ magnitude 59604644775390625 (-24) ∧
    magnitude 4 38 < 2 ^ 129 ∧ 2 ^ 129 ≤ magnitude 1 39 := by
  refine ⟨rfl, ?_⟩
  norm_num [magnitude, zpow_neg, zpow_natCast]

/-- A power of two as a decimal coefficient. -/
theorem magnitude_two_pow (n : Nat) : magnitude (2 ^ n) 0 = 2 ^ n := by
  simp [magnitude]

theorem witness_EncDEncodesDoublePrecision :
    (encode ports8 (.encD false 1 0)).prec = 0x40#8 ∧
    magnitude 1 (-16) < 1 / 2 ^ 53 ∧ 1 / 2 ^ 53 ≤ magnitude (5 ^ 53) (-53) ∧
    magnitude 1 0 < 2 ^ 1025 ∧ 2 ^ 1025 ≤ magnitude (2 ^ 1025) 0 := by
  refine ⟨rfl, by norm_num [magnitude, zpow_neg, zpow_natCast], by norm_num [magnitude, zpow_neg, zpow_natCast], ?_, ?_⟩
  · simpa [magnitude] using one_lt_pow₀ (a := (2 : ℚ)) (by norm_num) (by decide : 1025 ≠ 0)
  · exact (magnitude_two_pow 1025).ge

theorem witness_EncXEncodesExtendedPrecision :
    (encode ports8 (.encX false 1 0)).prec = 0x50#8 ∧
    magnitude 1 (-20) < 1 / 2 ^ 64 ∧ 1 / 2 ^ 64 ≤ magnitude (5 ^ 64) (-64) ∧
    magnitude 1 0 < 2 ^ 16385 ∧ 2 ^ 16385 ≤ magnitude (2 ^ 16385) 0 ∧
    (encodeFn 0x50#8 false 1 0).toOption.isSome = true := by
  refine ⟨rfl, by norm_num [magnitude, zpow_neg, zpow_natCast], by norm_num [magnitude, zpow_neg, zpow_natCast], ?_, ?_,
    by decide +kernel⟩
  · simpa [magnitude] using one_lt_pow₀ (a := (2 : ℚ)) (by norm_num) (by decide : 16385 ≠ 0)
  · exact (magnitude_two_pow 16385).ge

/-- An error and an output; used for the statements on completion and on `RSP_BITS`. -/
theorem witness_CompletionWritesResultRegisters :
    encodeOf (encodeRequest (.encH true 0 5)) = .error .valErr ∧
    encodeOf (encodeRequest (.encH false 10 (-1))) =
      .ok [false, false, true, true, true, true, false, false, false, false, false, false, false, false, false, false] ∧
    CompletesNext (busyWith reqIllegal [edgeOf false false reqHalf true]) ∧
    IllegalCode (busyWith reqIllegal [edgeOf false false reqHalf true]).reqPrec := by
  refine ⟨by rfl, by rfl, ⟨rfl, rfl, rfl, rfl⟩, ?_⟩
  unfold IllegalCode
  decide

theorem witness_ExecLeavesAllButResultRegisters :
    exec (.encS false 0 0) State.reset = .next (completeWith 0x20#8 (encodeFn 0x20#8 false 0 0) State.reset) := rfl

/-- The first and the last character of a string of 16, and the bit above it. -/
theorem witness_RspBitsHoldOutputString :
    (encodeOf (encodeRequest (.encH false 10 (-1)))).toOption.map List.length = some 16 ∧ 1 ≤ 1 ∧ 16 ≤ 16 ∧
    encodeOf (encodeRequest (.encH true 0 5)) = .error .valErr ∧
    CompletesNext (busyWith reqIllegal [edgeOf false false reqHalf true]) ∧
    AcceptsNext (readyWith [edgeOf false true reqHalf true]) ∧
    (sampled (busyWith reqHalf [edgeOf true true reqHalf true])).rst = true :=
  ⟨by rfl, by decide, by decide, by rfl, ⟨rfl, rfl, rfl, rfl⟩, ⟨rfl, rfl, rfl, rfl⟩, rfl⟩

theorem witness_ResponseHeldUntilAcceptanceOrReset :
    Inv (answeredWith [edgeOf false false reqHalf true]) ∧
    (answeredWith [edgeOf false false reqHalf true]).rspValid = true ∧
    ¬ AcceptsNext (answeredWith [edgeOf false false reqHalf true]) ∧
    (sampled (answeredWith [edgeOf false false reqHalf true])).rst = false ∧
    AcceptsNext (answeredWith [edgeOf false true reqHalf true]) ∧
    (sampled (answeredWith [edgeOf true false reqHalf true])).rst = true ∧
    Inv (busyWith reqHalf []) ∧ (busyWith reqHalf []).rspValid = false :=
  ⟨answered_inv _, rfl, (fun h => by cases h.2.2.2), rfl, ⟨rfl, rfl, rfl, rfl⟩, rfl, busy_inv _ _, rfl⟩

theorem witness_AcceptedExactlyWhenValidAndReady :
    (readyWith [edgeOf false true reqHalf true]).resetSeen = true ∧
    (sampled (readyWith [edgeOf false true reqHalf true])).reqValid = true ∧
    reqReady (readyWith [edgeOf false true reqHalf true]) = true ∧
    ¬ ((sampled (busyWith reqHalf [edgeOf false true reqIllegal true])).reqValid = true ∧
      reqReady (busyWith reqHalf [edgeOf false true reqIllegal true]) = true) ∧
    (sampled (busyWith reqHalf [edgeOf false true reqIllegal true])).rst = false := by
  decide

theorem witness_ResponseOnlyForRequestInFlight :
    Inv (busyWith reqHalf [edgeOf false false reqHalf true]) ∧
    step (busyWith reqHalf [edgeOf false false reqHalf true]) =
      .next (completeWith 0x10#8 (encodeOf reqHalf) (tick (busyWith reqHalf [edgeOf false false reqHalf true]))) ∧
    (completeWith 0x10#8 (encodeOf reqHalf) (tick (busyWith reqHalf [edgeOf false false reqHalf true]))).rspValid = true ∧
    step (busyWith reqHalf [edgeOf false false reqHalf false]) =
      .next (tick (busyWith reqHalf [edgeOf false false reqHalf false])) ∧
    (tick (busyWith reqHalf [edgeOf false false reqHalf false])).ctrl = .busy :=
  ⟨busy_inv _ _, rfl, by rw [completeWith_eq], rfl, rfl⟩

theorem witness_PortChangesWhileBusyHaveNoEffect :
    (busyWith reqHalf []).resetSeen = true ∧ (busyWith reqHalf []).ctrl = .busy ∧
    (edgeOf false true reqIllegal true).rst = (edgeOf false false reqHalf true).rst ∧
    (edgeOf false true reqIllegal true).done = (edgeOf false false reqHalf true).done ∧
    AcceptsNext (readyWith [edgeOf false true reqIllegal true]) :=
  ⟨rfl, rfl, rfl, rfl, ⟨rfl, rfl, rfl, rfl⟩⟩

/-- A request whose latency is 1, given by the quiet edge past the end of the list. -/
theorem witness_AcceptedRequestCompletes :
    AcceptsNext (readyWith [edgeOf false true reqHalf false]) ∧
    edgesToDone (readyWith [edgeOf false true reqHalf false]).inputs.tail = 1 ∧
    NoResetWithin 1 (readyWith [edgeOf false true reqHalf false]).inputs.tail := by
  refine ⟨⟨rfl, rfl, rfl, rfl⟩, rfl, ?_⟩
  unfold NoResetWithin
  decide

/-- The same request with latency 1, and with latency 3 and another request on the ports meanwhile. -/
theorem witness_ResponseDependsOnlyOnRequest :
    AcceptsNext (readyWith [edgeOf false true reqHalf false]) ∧
    AcceptsNext (answeredWith [edgeOf false true reqHalf true, edgeOf false true reqIllegal false,
      edgeOf false false reqHalf false]) ∧
    edgesToDone (answeredWith [edgeOf false true reqHalf true, edgeOf false true reqIllegal false,
      edgeOf false false reqHalf false]).inputs.tail = 3 ∧
    NoResetWithin 3 (answeredWith [edgeOf false true reqHalf true, edgeOf false true reqIllegal false,
      edgeOf false false reqHalf false]).inputs.tail ∧
    (sampled (readyWith [edgeOf false true reqHalf false])).req =
      (sampled (answeredWith [edgeOf false true reqHalf true, edgeOf false true reqIllegal false,
        edgeOf false false reqHalf false])).req := by
  refine ⟨⟨rfl, rfl, rfl, rfl⟩, ⟨rfl, rfl, rfl, rfl⟩, rfl, ?_, rfl⟩
  unfold NoResetWithin
  decide

/-- The literals 1.5 and 1.50. -/
theorem witness_LiteralFieldsDenoteItsValue :
    literalMagnitude { negative := false, intDigits := [1], fracDigits := [5], exponent := 0 } =
      literalMagnitude { negative := false, intDigits := [1], fracDigits := [5, 0], exponent := 0 } := by
  norm_num [literalMagnitude, digitsValue, digitsValueFrom]

theorem witness_PresentedRequestIsHeldUntilAccepted :
    (HostRun.mk (busyWith reqHalf []) [.present reqHalf] []).machine.resetSeen = true ∧
    (HostRun.mk (busyWith reqHalf []) [.present reqHalf] []).todo = .present reqHalf :: [] ∧
    (HostRun.mk (busyWith reqHalf []) [.present reqHalf] []).machine.ctrl = .busy ∧
    (HostRun.mk (readyWith []) [.present reqHalf] []).machine.ctrl = .idle :=
  ⟨rfl, rfl, rfl, rfl⟩

end Sys2Proof.Tests
end

section
/-! Every step keeps what the machine holds and what is scripted presentable on its ports (00_scope.md rule R8,
10_state.md rule R24). -/

namespace Sys2Proof.Machine

@[simp] theorem completeWith_inputs (prec : BitVec 8) (r : Except ErrorClass BitStr) (s : State) :
    (completeWith prec r s).inputs = s.inputs := by
  rw [completeWith_eq]

@[simp] theorem completeWith_ctrl (prec : BitVec 8) (r : Except ErrorClass BitStr) (s : State) :
    (completeWith prec r s).ctrl = .idle := by
  rw [completeWith_eq]

@[simp] theorem acceptEdge_inputs (s : State) : (acceptEdge s).inputs = s.inputs.tail := rfl

@[simp] theorem captured_acceptEdge (s : State) : captured (acceptEdge s) = (sampled s).req := rfl

@[simp] theorem resetEdge_inputs (s : State) : (resetEdge s).inputs = s.inputs.tail := rfl

@[simp] theorem resetEdge_ctrl (s : State) : (resetEdge s).ctrl = .idle := rfl

/-- Every step that goes on leaves exactly the sampled input behind. -/
theorem step_next_inputs (s t : State) (h : step s = .next t) : t.inputs = s.inputs.tail := by
  rcases step_next_inv s t h with ⟨-, rfl⟩ | ⟨-, rfl⟩ | ⟨-, rfl⟩ | ⟨-, rfl⟩ <;> simp

/-- Where the request in flight comes from: the live fields at this edge, or the registers of a block already `BUSY`. -/
theorem step_next_busy_captured (s t : State) (h : step s = .next t) (hb : t.ctrl = .busy) :
    captured t = (sampled s).req ∨ (s.ctrl = .busy ∧ captured t = captured s) := by
  rcases step_next_inv s t h with ⟨-, rfl⟩ | ⟨-, rfl⟩ | ⟨-, rfl⟩ | ⟨-, rfl⟩
  case inl => simp at hb
  case inr.inl => exact .inl (captured_acceptEdge s)
  case inr.inr.inl => simp at hb
  case inr.inr.inr => exact .inr ⟨hb, captured_tick s⟩

/-- The request fields of an unscripted edge fit ports of any widths, 0 among them. -/
theorem quietEdge_req_fits (w : PortWidths) : quietEdge.req.fits w = true := by
  simp [Request.fits, coeffFits, expFits, quietEdge]

/-- What is sampled is scripted, or the quiet edge. -/
theorem sampled_req_fits (w : PortWidths) (s : State) (h : ∀ e ∈ s.inputs, e.req.fits w = true) :
    (sampled s).req.fits w = true := by
  unfold sampled
  cases hi : s.inputs with
  | nil => exact quietEdge_req_fits w
  | cons e es => exact h e (by simp [hi])

end Sys2Proof.Machine

open Sys2Proof.Machine

/-- Settles O8: a request in flight after the step was sampled at this edge, or was in flight before it. -/
theorem stepKeepsRequestInFlightPresentable : Obligations.StepKeepsRequestInFlightPresentable := by
  intro w s t ⟨hscript, hflight⟩ h
  constructor
  · intro e he
    rw [step_next_inputs s t h] at he
    exact hscript e (List.mem_of_mem_tail he)
  · intro hb
    obtain hlive | ⟨hbusy, hheld⟩ := step_next_busy_captured s t h hb
    · rw [hlive]; exact sampled_req_fits w s hscript
    · rw [hheld]; exact hflight hbusy

end

section
/-! The length of ENCODE's output string (41_encoder.md rules R99 to R103), and the place of its characters in `RSP_BITS`
(10_state.md rule R28). -/

namespace Sys2Proof.Machine

/-! ### Lengths of the fields -/

theorem radixLoop_length_le (fuel n : Nat) (acc : BitStr) : (radixLoop fuel n acc).length ≤ fuel + acc.length := by
  induction fuel generalizing n acc with
  | zero => simp [radixLoop]
  | succ fuel ih =>
    simp only [radixLoop]
    split
    · omega
    · have := ih (n / 2) (decide (n % 2 = 1) :: acc)
      simp only [List.length_cons] at this
      omega

theorem bitLength_le_of_lt (n w : Nat) (h : n < 2 ^ w) : bitLength n ≤ w := by
  unfold bitLength
  split
  · omega
  · next hn => exact (Nat.log2_lt hn).2 h

theorem radix_length_le_of_lt (n w : Nat) (h : n < 2 ^ w) : (radix n).length ≤ w :=
  (radixLoop_length_le _ n []).trans (bitLength_le_of_lt n w h)

theorem expField_length (k : ClassConst) (biased : Nat) (h : biased < 2 ^ k.expWidth) :
    (expField k biased).length = k.expWidth :=
  lpad_length _ _ (radix_length_le_of_lt biased k.expWidth h)

theorem intBitStr_length (k : ClassConst) (biased : Nat) : (intBitStr k biased).length = k.explicitInt.toNat := by
  cases hk : k.explicitInt <;> simp [intBitStr, hk]

theorem assembleOutput_length (k : ClassConst) (sign : Bool) (biased : Nat) (fr : BitStr)
    (h : biased < 2 ^ k.expWidth) :
    (assembleOutput k sign biased fr).length = 1 + k.expWidth + k.explicitInt.toNat + fr.length := by
  simp only [assembleOutput, signStr, List.length_append, List.length_singleton, expField_length k biased h,
    intBitStr_length]

theorem encodeDigits_ok_length (k : ClassConst) (sign : Bool) (int : Nat) (ib fb str : BitStr) (hf : 0 < k.fracWidth)
    (h : encodeDigits k sign int ib fb = .ok str) :
    str.length = 1 + k.expWidth + k.explicitInt.toNat + k.fracWidth := by
  rcases encodeDigits_cases k sign int ib fb with
    ⟨-, herr⟩ | ⟨e, mb, x, -, -, herr⟩ | ⟨e, mb, biased, -, hb, hok⟩
  · rw [herr] at h; cases h
  · rw [herr] at h; cases h
  · rw [hok] at h
    cases h
    have hlt := (biasedExponent_ok k e biased hb).2
    rw [assembleOutput_length k sign biased _ hlt, roundGuard_length _ mb hf]

/-- The fields of a class fill its output width (30_encoding.md rule R62). -/
theorem classConst_widths (p : PrecClass) :
    0 < (classConst p).fracWidth ∧
    1 + (classConst p).expWidth + (classConst p).explicitInt.toNat + (classConst p).fracWidth = classWidth p := by
  cases p <;> decide

theorem classWidth_mem (p : PrecClass) : classWidth p ∈ [16, 32, 64, 80] := by
  cases p <;> decide

theorem encodeClass_ok_length (p : PrecClass) (sign : Bool) (c : Nat) (q : Int) (str : BitStr)
    (h : encodeClass p sign c q = .ok str) : str.length = classWidth p := by
  obtain ⟨hf, hw⟩ := classConst_widths p
  unfold encodeClass at h
  split at h
  · cases h
  · exact (encodeDigits_ok_length _ _ _ _ _ _ hf h).trans hw

/-- An output string of ENCODE is as long as the precision code says, one of the four widths. -/
theorem encodeOf_ok_length (r : Request) (str : BitStr) (h : encodeOf r = .ok str) :
    str.length = r.prec.toNat ∧ r.prec.toNat ∈ [16, 32, 64, 80] := by
  unfold encodeOf encodeFn at h
  split at h
  case h_1 => cases h
  case h_2 p hp =>
    rw [precClass_some r.prec p hp]
    exact ⟨encodeClass_ok_length p _ _ _ str h, classWidth_mem p⟩

theorem encodeOf_ok_length_le (r : Request) (str : BitStr) (h : encodeOf r = .ok str) : str.length ≤ 80 := by
  obtain ⟨hlen, hmem⟩ := encodeOf_ok_length r str h
  simp only [List.mem_cons, List.not_mem_nil, or_false] at hmem
  omega

theorem encodeOf_illegal (r : Request) (h : IllegalCode r.prec) : encodeOf r = .error .cfgErr := by
  simp [encodeOf, encodeFn, precClass_illegal _ h]

/-! ### The characters of a string as bits -/

/-- The first character of a string is the most significant digit of its value. -/
theorem testBit_strValue (s : BitStr) (k : Nat) (h : k < s.length) :
    (strValue s).testBit (s.length - 1 - k) = s.getD k false := by
  induction s generalizing k with
  | nil => simp at h
  | cons b s ih =>
    rw [strValue_cons, Nat.mul_comm, Nat.testBit_two_pow_mul_add _ (strValue_lt s)]
    cases k with
    | zero => cases b <;> simp
    | succ k =>
      have hk : k < s.length := by simpa using h
      have hidx : (b :: s).length - 1 - (k + 1) = s.length - 1 - k := by simp; omega
      rw [hidx, if_pos (by omega), ih k hk, List.getD_cons_succ]

theorem testBit_strValue_of_length_le (s : BitStr) (k : Nat) (h : s.length ≤ k) : (strValue s).testBit k = false :=
  Nat.testBit_lt_two_pow ((strValue_lt s).trans_le (Nat.pow_le_pow_right (by omega) h))

/-- Character `k` of a string of at most 80 characters stands at bit `length - k`, counted from 1 (10_state.md
rule R28). -/
theorem vec80_getLsbD (s : BitStr) (k : Nat) (hs : s.length ≤ 80) (h1 : 1 ≤ k) (hk : k ≤ s.length) :
    (vec80 s).getLsbD (s.length - k) = s.getD (k - 1) false := by
  have hidx : s.length - k = s.length - 1 - (k - 1) := by omega
  have hlt : s.length - 1 - (k - 1) < 80 := by omega
  simp only [vec80, BitVec.getLsbD_ofNat, hidx, hlt, decide_true, Bool.true_and]
  exact testBit_strValue s (k - 1) (by omega)

theorem vec80_getLsbD_of_length_le (s : BitStr) (k : Nat) (h : s.length ≤ k) : (vec80 s).getLsbD k = false := by
  simp [vec80, BitVec.getLsbD_ofNat, testBit_strValue_of_length_le s k h]

theorem vec80_toNat_lt (s : BitStr) : (vec80 s).toNat < 2 ^ s.length :=
  (Nat.mod_le _ _).trans_lt (strValue_lt s)

end Sys2Proof.Machine

end

section
/-! The result registers: what each edge leaves in them, and the invariants of 10_state.md rule R33. -/

namespace Sys2Proof.Machine

/-! ### What an edge leaves in the result registers -/

@[simp] theorem completeWith_resetSeen (prec : BitVec 8) (r : Except ErrorClass BitStr) (s : State) :
    (completeWith prec r s).resetSeen = s.resetSeen := by
  rw [completeWith_eq]

@[simp] theorem completeWith_rspBits (prec : BitVec 8) (r : Except ErrorClass BitStr) (s : State) :
    (completeWith prec r s).rspBits = (responseOf prec r).bits := by
  rw [completeWith_eq]

@[simp] theorem shownResponse_completeWith (prec : BitVec 8) (r : Except ErrorClass BitStr) (s : State) :
    shownResponse (completeWith prec r s) = (true, responseOf prec r) := by
  rw [completeWith_eq]; rfl

@[simp] theorem shownResponse_acceptEdge (s : State) : shownResponse (acceptEdge s) = (false, clearedResponse) := rfl

@[simp] theorem shownResponse_resetEdge (s : State) : shownResponse (resetEdge s) = (false, clearedResponse) := rfl

@[simp] theorem acceptEdge_resetSeen (s : State) : (acceptEdge s).resetSeen = s.resetSeen := rfl

@[simp] theorem resetEdge_resetSeen (s : State) : (resetEdge s).resetSeen = true := rfl

/-- Nothing takes back that a reset edge has been seen. -/
theorem step_next_resetSeen (s t : State) (hs : s.resetSeen = true) (h : step s = .next t) : t.resetSeen = true := by
  rcases step_next_inv s t h with ⟨-, rfl⟩ | ⟨-, rfl⟩ | ⟨-, rfl⟩ | ⟨-, rfl⟩ <;> simp [hs]

theorem edgeKind_of_rst (s : State) (h : (sampled s).rst = true) : edgeKind s = .reset := by
  simp [edgeKind, h]

/-! ### The invariants of rule R33 -/

theorem resultRegsOk_of_cleared (s : State) (h : shownResponse s = (false, clearedResponse)) : ResultRegsOk s := by
  simp only [shownResponse, clearedResponse, Prod.mk.injEq, Response.mk.injEq] at h
  obtain ⟨hvalid, hcleared⟩ := h
  exact
    { clearedWhileInvalid := fun _ => hcleared
      okShape := by simp [hvalid]
      errorShape := by simp [hvalid]
      invalidWhileBusy := fun _ => hvalid }

theorem resultRegsOk_tick (s : State) (h : ResultRegsOk s) : ResultRegsOk (tick s) :=
  { clearedWhileInvalid := h.clearedWhileInvalid
    okShape := h.okShape
    errorShape := h.errorShape
    invalidWhileBusy := h.invalidWhileBusy }

theorem errorCode_mem (x : ErrorClass) : (errorCode x).toNat ∈ [1, 2, 3, 4] := by
  cases x <;> decide

theorem errorCode_ne_zero (x : ErrorClass) : errorCode x ≠ 0#3 := by
  cases x <;> decide

theorem resultRegsOk_completeWithError (x : ErrorClass) (s : State) : ResultRegsOk (completeWithError x s) := by
  rw [completeWithError_eq]
  exact
    { clearedWhileInvalid := by simp
      okShape := fun _ h => absurd h (errorCode_ne_zero x)
      errorShape := fun _ _ => ⟨errorCode_mem x, rfl, rfl⟩
      invalidWhileBusy := by simp }

theorem resultRegsOk_completeWithOutput (prec : BitVec 8) (str : BitStr) (s : State) (hlen : str.length = prec.toNat)
    (hmem : prec.toNat ∈ [16, 32, 64, 80]) : ResultRegsOk (completeWithOutput prec str s) := by
  have hrsp : (BitVec.ofNat 7 prec.toNat).toNat = prec.toNat := by
    simp only [List.mem_cons, List.not_mem_nil, or_false] at hmem
    rw [BitVec.toNat_ofNat]
    omega
  have hbits : (vec80 str).toNat < 2 ^ prec.toNat := hlen ▸ vec80_toNat_lt str
  rw [completeWithOutput_eq]
  exact
    { clearedWhileInvalid := by simp
      okShape := fun _ _ => by rw [hrsp]; exact ⟨hmem, hbits⟩
      errorShape := fun _ h => absurd rfl h
      invalidWhileBusy := by simp }

/-- Completing with ENCODE of a request leaves the result registers in shape, whatever they held. -/
theorem resultRegsOk_completeWith_encodeOf (r : Request) (s : State) :
    ResultRegsOk (completeWith r.prec (encodeOf r) s) := by
  cases h : encodeOf r with
  | error x => exact resultRegsOk_completeWithError x s
  | ok str =>
    obtain ⟨hlen, hmem⟩ := encodeOf_ok_length r str h
    exact resultRegsOk_completeWithOutput r.prec str s hlen hmem

/-- Only an edge that changes no register needs the invariant to have held before it. -/
theorem step_keeps_inv (s t : State) (hs : Inv s) (h : step s = .next t) : Inv t := by
  intro hseen
  rcases step_next_inv s t h with ⟨-, rfl⟩ | ⟨-, rfl⟩ | ⟨-, rfl⟩ | ⟨-, rfl⟩
  · exact resultRegsOk_of_cleared _ (shownResponse_resetEdge s)
  · exact resultRegsOk_of_cleared _ (shownResponse_acceptEdge s)
  · exact resultRegsOk_completeWith_encodeOf (captured s) (tick s)
  · exact resultRegsOk_tick s (hs hseen)

/-! ### What an observer reads -/

theorem ResultRegsOk.rspStatus_le (s : State) (h : ResultRegsOk s) (hv : s.rspValid = true) :
    s.rspStatus.toNat ≤ 4 := by
  by_cases h0 : s.rspStatus = 0#3
  · simp [h0]
  · have hmem := (h.errorShape hv h0).1
    simp only [List.mem_cons, List.not_mem_nil, or_false] at hmem
    omega

theorem readResponse_of_invalid (o : OutputPorts) (h : o.rspValid = false) : readResponse o = .ok none := by
  simp [readResponse, h]

theorem readResponse_of_status_le (o : OutputPorts) (hv : o.rspValid = true) (h : o.rspStatus.toNat ≤ 4) :
    readResponse o = .ok (some { status := o.rspStatus, len := o.rspLen, bits := o.rspBits }) := by
  simp [readResponse, hv, h]

theorem readResponse_of_reserved (o : OutputPorts) (hv : o.rspValid = true) (h : 5 ≤ o.rspStatus.toNat) :
    readResponse o = .error (.reservedStatus o.rspStatus) := by
  have hgt : ¬ o.rspStatus.toNat ≤ 4 := by omega
  simp [readResponse, hv, hgt]

end Sys2Proof.Machine

open Sys2Proof.Machine

/-- Settles O7: every edge but a hold writes the result registers whole, and a hold leaves them alone. -/
theorem stepKeepsResultRegisterInvariant : Obligations.StepKeepsResultRegisterInvariant :=
  step_keeps_inv

/-- Settles O9: a status the invariant allows is at most 4. -/
theorem reservedStatusNeverShown : Obligations.ReservedStatusNeverShown := by
  refine ⟨fun s t hseen hinv h => ?_, readResponse_of_reserved⟩
  have hregs : ResultRegsOk t := step_keeps_inv s t hinv h (step_next_resetSeen s t hseen h)
  cases hv : t.rspValid with
  | false => exact readResponse_of_invalid (outputPorts t) hv
  | true => exact readResponse_of_status_le (outputPorts t) hv (hregs.rspStatus_le t hv)

/-- Settles O32: bit `p - i` of the value of a string of length `p` is its character `i`. -/
theorem rspBitsHoldOutputString : Obligations.RspBitsHoldOutputString := by
  refine ⟨fun i s str h => ?_, fun i s x h => ?_, fun s hc hill => ?_, fun s h => ?_⟩
  · refine ⟨_, exec_eq i s, (encodeOf_ok_length _ str h).1, fun k h1 hk => ?_, fun k hk => ?_⟩
    · rw [completeWith_rspBits, h]
      exact vec80_getLsbD str k (encodeOf_ok_length_le _ str h) h1 hk
    · rw [completeWith_rspBits, h]
      exact vec80_getLsbD_of_length_le str k hk
  · refine ⟨_, exec_eq i s, ?_⟩
    rw [completeWith_rspBits, h]
    rfl
  · refine ⟨_, step_of_complete s (edgeKind_of_completesNext s hc), ?_⟩
    rw [completeWith_rspBits, encodeOf_illegal (captured s) hill]
    rfl
  · obtain haccept | hrst := h
    · exact ⟨_, step_of_accept s (edgeKind_of_acceptsNext s haccept), rfl⟩
    · exact ⟨_, step_of_reset s (edgeKind_of_rst s hrst), rfl⟩

/-- Settles O1: the result registers are cleared, which is enough for the invariant. -/
theorem resetStateHasSpecValues : Obligations.ResetStateHasSpecValues :=
  ⟨rfl, rfl, rfl, rfl, rfl, rfl, fun _ => resultRegsOk_of_cleared State.reset rfl⟩

end

section
/-! A request from its acceptance to its completion (70_reset_and_hazards.md rules R161, R162; 10_state.md rule R34). -/

namespace Sys2Proof.Machine

theorem runEdges_succ (n : Nat) (s t : State) (h : step s = .next t) : runEdges (n + 1) s = runEdges n t := by
  simp [runEdges, h]

theorem noResetWithin_sampled (n : Nat) (s : State) (h : NoResetWithin (n + 1) s.inputs) : (sampled s).rst = false := by
  unfold sampled
  cases hi : s.inputs with
  | nil => rfl
  | cons e es => exact h e (by simp [hi])

theorem noResetWithin_tail (n : Nat) (es : List EdgeInput) (h : NoResetWithin (n + 1) es) :
    NoResetWithin n es.tail := by
  cases es with
  | nil => simp [NoResetWithin]
  | cons e es => exact fun e' he' => h e' (List.mem_cons_of_mem e he')

/-- The latency counts the edges up to the first one that draws `done`. -/
theorem edgesToDone_eq (s : State) :
    edgesToDone s.inputs = if (sampled s).done then 1 else edgesToDone s.inputs.tail + 1 := by
  unfold sampled
  cases hi : s.inputs with
  | nil => rfl
  | cons e es => rfl

theorem edgesToDone_pos (es : List EdgeInput) : 0 < edgesToDone es := by
  cases es with
  | nil => exact Nat.one_pos
  | cons e es => simp only [edgesToDone]; split <;> omega

theorem edgeKind_of_busy_not_done (s : State) (hseen : s.resetSeen = true) (hbusy : s.ctrl = .busy)
    (hrst : (sampled s).rst = false) (hdone : (sampled s).done = false) : edgeKind s = .hold := by
  simp [edgeKind, hseen, hbusy, hrst, hdone]

/-- A `BUSY` block that is not reset completes after its latency, with ENCODE of the request in flight; everything but the
result registers, `STATE` and the inputs used up stays. -/
theorem runEdges_edgesToDone_of_busy (s : State) (hseen : s.resetSeen = true) (hbusy : s.ctrl = .busy)
    (hnoReset : NoResetWithin (edgesToDone s.inputs) s.inputs) :
    runEdges (edgesToDone s.inputs) s =
      .next (completeWith s.reqPrec (encodeOf (captured s))
        { s with inputs := s.inputs.drop (edgesToDone s.inputs) }) := by
  induction hn : edgesToDone s.inputs generalizing s with
  | zero => exact absurd hn (edgesToDone_pos s.inputs).ne'
  | succ n ih =>
    rw [hn] at hnoReset
    have hrst := noResetWithin_sampled n s hnoReset
    rw [edgesToDone_eq] at hn
    cases hdone : (sampled s).done with
    | true =>
      obtain rfl : n = 0 := by simpa [hdone] using hn.symm
      rw [runEdges_succ 0 s _ (step_of_complete s (edgeKind_of_completesNext s ⟨hseen, hbusy, hrst, hdone⟩)),
        List.drop_one]
      rfl
    | false =>
      have hn' : edgesToDone s.inputs.tail = n := by simpa [hdone] using hn
      have htail := noResetWithin_tail n s.inputs hnoReset
      rw [runEdges_succ n s _ (step_of_hold s (edgeKind_of_busy_not_done s hseen hbusy hrst hdone)),
        ih (tick s) hseen hbusy (by rw [tick_inputs, hn']; exact htail) hn', ← List.drop_tail]
      rfl

/-- An accepted request that is not reset is answered with ENCODE of its own fields, whatever else the machine holds. -/
theorem acceptsNext_shows_encodeOf (s : State) (h : AcceptsNext s)
    (hnoReset : NoResetWithin (edgesToDone s.inputs.tail) s.inputs.tail) :
    ∃ t, runEdges (edgesToDone s.inputs.tail + 1) s = .next t ∧
      shownResponse t = (true, responseOf (sampled s).req.prec (encodeOf (sampled s).req)) := by
  have hseen : (acceptEdge s).resetSeen = true := h.1
  have hrun := runEdges_edgesToDone_of_busy (acceptEdge s) hseen rfl hnoReset
  rw [acceptEdge_inputs] at hrun
  rw [runEdges_succ _ s _ (step_of_accept s (edgeKind_of_acceptsNext s h)), hrun]
  exact ⟨_, rfl, shownResponse_completeWith _ _ _⟩

end Sys2Proof.Machine

open Sys2Proof.Machine

/-- Settles O38: what each machine shows at the end is a function of the accepted request. -/
theorem responseDependsOnlyOnRequest : Obligations.ResponseDependsOnlyOnRequest := by
  intro s s' h h' hreq hnoReset hnoReset'
  obtain ⟨t, hrun, hshown⟩ := acceptsNext_shows_encodeOf s h hnoReset
  obtain ⟨t', hrun', hshown'⟩ := acceptsNext_shows_encodeOf s' h' hnoReset'
  have hvalid : t.rspValid = true := congrArg Prod.fst hshown
  exact ⟨t, t', hrun, hrun', hvalid, by rw [hshown, hshown', hreq]⟩

end

section
/-! Which edges show a new response, and what goes on while the block is `BUSY` (20_memory.md rule R46, 10_state.md
rule R25). -/

namespace Sys2Proof.Machine

@[simp] theorem shownResponse_tick (s : State) : shownResponse (tick s) = shownResponse s := rfl

theorem completesNext_of_edgeKind (s : State) (hseen : s.resetSeen = true) (h : edgeKind s = .complete) :
    CompletesNext s := by
  unfold edgeKind at h
  split_ifs at h with hrst hunbooted haccept hcomplete
  simp only [Bool.and_eq_true, decide_eq_true_eq] at hcomplete
  obtain ⟨hbusy, hdone⟩ := hcomplete
  exact ⟨hseen, hbusy, Bool.eq_false_of_not_eq_true hrst, hdone⟩

theorem ctrl_idle_of_edgeKind_accept (s : State) (h : edgeKind s = .accept) : s.ctrl = .idle := by
  unfold edgeKind at h
  split_ifs at h with hrst hunbooted haccept hcomplete
  simp only [Bool.and_eq_true, decide_eq_true_eq] at haccept
  exact haccept.1

/-- Only a completing edge shows a new valid response: a reset or an accepting edge shows none, and a hold shows the one
before it. -/
theorem step_next_new_response (s t : State) (h : step s = .next t) (hvalid : t.rspValid = true)
    (hnew : shownResponse t ≠ shownResponse s) :
    edgeKind s = .complete ∧ shownResponse t = (true, responseOf s.reqPrec (encodeOf (captured s))) := by
  have hshown : (shownResponse t).1 = true := hvalid
  rcases step_next_inv s t h with ⟨-, rfl⟩ | ⟨-, rfl⟩ | ⟨hk, rfl⟩ | ⟨-, rfl⟩
  case inl => simp at hshown
  case inr.inl => simp at hshown
  case inr.inr.inl => exact ⟨hk, shownResponse_completeWith _ _ _⟩
  case inr.inr.inr => exact absurd (shownResponse_tick s) hnew

/-- A block that stays `BUSY` changes no register. -/
theorem step_next_stays_busy (s t : State) (h : step s = .next t) (hs : s.ctrl = .busy) (ht : t.ctrl = .busy) :
    t = tick s := by
  rcases step_next_inv s t h with ⟨-, rfl⟩ | ⟨hk, -⟩ | ⟨-, rfl⟩ | ⟨-, rfl⟩
  case inl => simp at ht
  case inr.inl => simp [ctrl_idle_of_edgeKind_accept s hk] at hs
  case inr.inr.inl => simp at ht
  case inr.inr.inr => rfl

end Sys2Proof.Machine

open Sys2Proof.Machine

/-- Settles O35: the one kind of edge that shows a new response completes the request in flight, and staying `BUSY` is a
hold, which keeps that request and, by the invariant, shows no response. -/
theorem responseOnlyForRequestInFlight : Obligations.ResponseOnlyForRequestInFlight := by
  intro s t hseen hinv h
  constructor
  · intro hvalid hnew
    obtain ⟨hkind, hshown⟩ := step_next_new_response s t h hvalid hnew
    exact ⟨completesNext_of_edgeKind s hseen hkind, hshown⟩
  · intro hs ht
    obtain rfl := step_next_stays_busy s t h hs ht
    exact ⟨captured_tick s, (hinv hseen).invalidWhileBusy hs⟩

end

section
/-! Port bits, requests and instructions: assembly and its inverse, and what the decoder reads (30_encoding.md rules R55
to R59). -/

namespace Sys2Proof

theorem wf_eq_fits_encodeRequest (w : PortWidths) (i : Instr) : i.wf w = (encodeRequest i).fits w := by
  cases i <;> rfl

theorem decodeRequest_encodeRequest (i : Instr) : decodeRequest (encodeRequest i) = .ok i := by
  cases i with
  | encH s c q => exact (Laws.PrecCode.encH s c q).2
  | encS s c q => exact (Laws.PrecCode.encS s c q).2
  | encD s c q => exact (Laws.PrecCode.encD s c q).2
  | encX s c q => exact (Laws.PrecCode.encX s c q).2

/-! ### Two's complement on the exponent port -/

theorem expFits_iff (w : PortWidths) (q : Int) :
    expFits w q = true ↔ -(2 ^ w.expW : Int) ≤ 2 * q ∧ 2 * q < (2 ^ w.expW : Int) := by
  simp [expFits]

/-- An exponent that fits is read back with its sign, at width 0 too. -/
theorem toInt_ofInt_of_expFits (w : PortWidths) (q : Int) (h : expFits w q = true) :
    (BitVec.ofInt w.expW q).toInt = q := by
  obtain ⟨hlo, hhi⟩ := (expFits_iff w q).1 h
  rw [BitVec.toInt_ofInt]
  apply Int.bmod_eq_of_le_mul_two <;> push_cast <;> omega

theorem expFits_toInt (w : PortWidths) (x : BitVec w.expW) : expFits w x.toInt = true :=
  (expFits_iff w x.toInt).2 ⟨BitVec.le_two_mul_toInt, BitVec.two_mul_toInt_lt⟩

/-! ### Assembly and port bits are inverse -/

theorem assembleRequest_requestBits (w : PortWidths) (r : Request) (h : r.fits w = true) :
    assembleRequest w (requestBits w r) = r := by
  obtain ⟨prec, sign, coeff, exp⟩ := r
  simp only [Request.fits, coeffFits, Bool.and_eq_true, decide_eq_true_eq] at h
  obtain ⟨hcoeff, hexp⟩ := h
  simp only [assembleRequest, requestBits, BitVec.toNat_ofNat, Nat.mod_eq_of_lt hcoeff,
    toInt_ofInt_of_expFits w exp hexp]
  cases sign <;> rfl

theorem assembleRequest_fits (w : PortWidths) (b : RequestBits w) : (assembleRequest w b).fits w = true := by
  simp [assembleRequest, Request.fits, coeffFits, expFits_toInt, BitVec.isLt]

theorem requestBits_assembleRequest (w : PortWidths) (b : RequestBits w) :
    requestBits w (assembleRequest w b) = b := by
  obtain ⟨prec, sign, coeff, exp⟩ := b
  simp only [requestBits, assembleRequest, BitVec.ofNat_toNat, BitVec.setWidth_eq, BitVec.ofInt_toInt]
  obtain rfl | rfl := BitVec.eq_zero_or_eq_one sign <;> rfl

end Sys2Proof

open Sys2Proof Sys2Proof.Machine

/-- Settles O10: operands that fit survive the ports, and the code of an instruction selects it again. -/
theorem decodeOfEncodeIsInstr : Obligations.DecodeOfEncodeIsInstr := by
  intro w i h
  rw [wf_eq_fits_encodeRequest] at h
  rw [decode, encode, assembleRequest_requestBits w _ h, decodeRequest_encodeRequest]

/-- Settles O11: what is decoded stands for the assembled request, which gives its port bits back. -/
theorem encodeOfDecodeIsBits : Obligations.EncodeOfDecodeIsBits := by
  intro w b i h
  have hreq : encodeRequest i = assembleRequest w b := decodeRequest_ok_inv _ i h
  constructor
  · rw [wf_eq_fits_encodeRequest, hreq, assembleRequest_fits]
  · rw [encode, hreq, requestBits_assembleRequest]

/-- Settles O12: one row of rule R58 for each clause. -/
theorem precCodeSelectsOperation : Obligations.PrecCodeSelectsOperation := by
  intro w b
  exact ⟨decodeRequest_encH (assembleRequest w b), decodeRequest_encS (assembleRequest w b),
    decodeRequest_encD (assembleRequest w b), decodeRequest_encX (assembleRequest w b),
    decodeRequest_illegal (assembleRequest w b)⟩

/-- Settles O13: acceptance does not look at the code, and ENCODE stops at the precision check. -/
theorem illegalCodeCompletesWithCfgErr : Obligations.IllegalCodeCompletesWithCfgErr := by
  constructor
  · intro s haccept _
    exact ⟨acceptEdge s, step_of_accept s (edgeKind_of_acceptsNext s haccept), rfl, captured_acceptEdge s⟩
  · intro s hcomplete hillegal
    rw [step_of_complete s (edgeKind_of_completesNext s hcomplete), encodeOf_illegal (captured s) hillegal]
    rfl

end

section
/-! ENCODE looks at the magnitude only (41_encoder.md rule R104), and the fields of a decimal literal denote its value
(30_encoding.md rule R64). -/

namespace Sys2Proof.Machine

/-! ### The magnitude as a fraction of naturals -/

theorem magDen_pos (q : Int) : 0 < magDen q :=
  Nat.pow_pos (by decide)

theorem magDen_of_nonneg (q : Int) (h : 0 ≤ q) : magDen q = 1 := by
  simp [magDen, h]

theorem magNum_of_neg (c : Nat) (q : Int) (h : q < 0) : magNum c q = c := by
  simp [magNum, Int.toNat_of_nonpos h.le]

theorem magInt_eq_div (c : Nat) (q : Int) : magInt c q = magNum c q / magDen q := by
  unfold magInt
  split
  case isTrue h => rw [magDen_of_nonneg q h, Nat.div_one, magNum]
  case isFalse h => rw [magNum_of_neg c q (by omega), magDen]

theorem magFrac_eq_mod (c : Nat) (q : Int) : magFrac c q = magNum c q % magDen q := by
  unfold magFrac
  split
  case isTrue h => rw [magDen_of_nonneg q h, Nat.mod_one]
  case isFalse h => rw [magNum_of_neg c q (by omega), magDen]

theorem magnitude_eq_div (c : Nat) (q : Int) : magnitude c q = (magNum c q : ℚ) / magDen q := by
  unfold magnitude
  obtain h | h := le_or_gt 0 q
  · obtain ⟨n, rfl⟩ := Int.eq_ofNat_of_zero_le h
    simp [magNum, magDen]
  · obtain ⟨n, rfl⟩ := Int.exists_eq_neg_ofNat h.le
    simp [magNum, magDen, div_eq_mul_inv]

theorem magnitude_eq_iff_cross_mul (c c' : Nat) (q q' : Int) :
    magnitude c q = magnitude c' q' ↔ magDen q' * magNum c q = magDen q * magNum c' q' := by
  have hD : (magDen q : ℚ) ≠ 0 := Nat.cast_ne_zero.2 (magDen_pos q).ne'
  have hD' : (magDen q' : ℚ) ≠ 0 := Nat.cast_ne_zero.2 (magDen_pos q').ne'
  rw [magnitude_eq_div, magnitude_eq_div, div_eq_div_iff hD hD', mul_comm, mul_comm (magNum c' q' : ℚ)]
  exact_mod_cast Iff.rfl

theorem magnitude_eq_zero_iff (c : Nat) (q : Int) : magnitude c q = 0 ↔ c = 0 := by
  have hpow : (10 : ℚ) ^ q ≠ 0 := zpow_ne_zero q (by norm_num)
  simp [magnitude, hpow]

/-! ### Scaling a fraction changes neither its integer part nor its digits -/

theorem fracLoop_mul_left (k den n r : Nat) (hk : 0 < k) : fracLoop (k * den) n (k * r) = fracLoop den n r := by
  induction n generalizing r with
  | zero => rfl
  | succ n ih =>
    have hdouble : 2 * (k * r) = k * (2 * r) := Nat.mul_left_comm 2 k r
    simp only [fracLoop, hdouble, Nat.mul_le_mul_left_iff hk, ← Nat.mul_sub, ih]

/-- The fraction digits of `m / d`, from the two naturals. -/
theorem frac_mod_mul_left (k m d n : Nat) (hk : 0 < k) :
    frac (k * m % (k * d)) (k * d) n = frac (m % d) d n := by
  rw [Nat.mul_mod_mul_left]
  exact fracLoop_mul_left k d n (m % d) hk

theorem magInt_eq_of_magnitude_eq (c c' : Nat) (q q' : Int) (h : magnitude c q = magnitude c' q') :
    magInt c q = magInt c' q' := by
  have hcross := (magnitude_eq_iff_cross_mul c c' q q').1 h
  calc magInt c q = magDen q' * magNum c q / (magDen q' * magDen q) := by
        rw [Nat.mul_div_mul_left _ _ (magDen_pos q'), magInt_eq_div]
    _ = magDen q * magNum c' q' / (magDen q * magDen q') := by rw [hcross, Nat.mul_comm (magDen q')]
    _ = magInt c' q' := by rw [Nat.mul_div_mul_left _ _ (magDen_pos q), magInt_eq_div]

theorem frac_eq_of_magnitude_eq (c c' : Nat) (q q' : Int) (n : Nat) (h : magnitude c q = magnitude c' q') :
    frac (magFrac c q) (magDen q) n = frac (magFrac c' q') (magDen q') n := by
  have hcross := (magnitude_eq_iff_cross_mul c c' q q').1 h
  calc frac (magFrac c q) (magDen q) n
      = frac (magDen q' * magNum c q % (magDen q' * magDen q)) (magDen q' * magDen q) n := by
        rw [frac_mod_mul_left _ _ _ _ (magDen_pos q'), magFrac_eq_mod]
    _ = frac (magDen q * magNum c' q' % (magDen q * magDen q')) (magDen q * magDen q') n := by
        rw [hcross, Nat.mul_comm (magDen q')]
    _ = frac (magFrac c' q') (magDen q') n := by
        rw [frac_mod_mul_left _ _ _ _ (magDen_pos q), magFrac_eq_mod]

theorem encodeClass_eq_of_magnitude_eq (p : PrecClass) (sign : Bool) (c c' : Nat) (q q' : Int)
    (h : magnitude c q = magnitude c' q') : encodeClass p sign c q = encodeClass p sign c' q' := by
  have hzero : c = 0 ↔ c' = 0 := by rw [← magnitude_eq_zero_iff c q, h, magnitude_eq_zero_iff]
  simp only [encodeClass, hzero, magInt_eq_of_magnitude_eq c c' q q' h,
    frac_eq_of_magnitude_eq c c' q q' (fracDigits p) h]

/-- 41_encoder.md rule R104: how a magnitude is spelled does not change the outcome of ENCODE. -/
theorem encodeFn_eq_of_magnitude_eq (prec : BitVec 8) (sign : Bool) (c c' : Nat) (q q' : Int)
    (h : magnitude c q = magnitude c' q') : encodeFn prec sign c q = encodeFn prec sign c' q' := by
  unfold encodeFn
  cases precClass prec with
  | none => rfl
  | some p => exact encodeClass_eq_of_magnitude_eq p sign c c' q q' h

/-! ### Decimal digits -/

theorem digitsValueFrom_eq (acc : Nat) (ds : List (Fin 10)) :
    digitsValueFrom acc ds = acc * 10 ^ ds.length + digitsValue ds := by
  unfold digitsValue
  induction ds generalizing acc with
  | nil => simp [digitsValueFrom]
  | cons d ds ih =>
    simp only [digitsValueFrom, List.length_cons, Nat.mul_zero, Nat.zero_add]
    rw [ih, ih d.val, Nat.pow_succ]
    ring

theorem digitsValueFrom_append (acc : Nat) (ds es : List (Fin 10)) :
    digitsValueFrom acc (ds ++ es) = digitsValueFrom (digitsValueFrom acc ds) es := by
  induction ds generalizing acc with
  | nil => rfl
  | cons d ds ih => exact ih _

theorem digitsValue_append (ds es : List (Fin 10)) :
    digitsValue (ds ++ es) = digitsValue ds * 10 ^ es.length + digitsValue es := by
  rw [digitsValue, digitsValueFrom_append, digitsValueFrom_eq]
  rfl

/-! ### Literals -/

theorem magnitude_literalRequest (prec : BitVec 8) (l : DecimalLit) :
    magnitude (literalRequest prec l).coeff (literalRequest prec l).exp = literalMagnitude l := by
  have h10 : (10 : ℚ) ≠ 0 := by norm_num
  simp only [literalRequest, magnitude, literalMagnitude, digitsValue_append, zpow_sub₀ h10, zpow_natCast]
  push_cast
  field_simp

/-- 30_encoding.md rule R64: different spellings of one signed value are one request to ENCODE. -/
theorem encodeOf_literalRequest_eq (prec : BitVec 8) (l l' : DecimalLit) (hsign : l.negative = l'.negative)
    (hmag : literalMagnitude l = literalMagnitude l') :
    encodeOf (literalRequest prec l) = encodeOf (literalRequest prec l') := by
  rw [← magnitude_literalRequest prec l, ← magnitude_literalRequest prec l'] at hmag
  have hsign' : (literalRequest prec l).sign = (literalRequest prec l').sign := hsign
  rw [encodeOf, encodeOf, hsign']
  exact encodeFn_eq_of_magnitude_eq prec _ _ _ _ _ hmag

end Sys2Proof.Machine

open Sys2Proof.Machine

/-- Settles O39: moving the point to the end of the digits multiplies by the power of ten that the exponent takes off, and
ENCODE looks at the magnitude only. -/
theorem literalFieldsDenoteItsValue : Obligations.LiteralFieldsDenoteItsValue := by
  refine ⟨fun prec l => ⟨rfl, ?_, rfl, magnitude_literalRequest prec l⟩, encodeOf_literalRequest_eq, ?_⟩
  · exact digitsValue_append l.intDigits l.fracDigits
  · decide

end

section
/-! A requester whose statement presents a request (30_encoding.md rule R63, 70_reset_and_hazards.md rules R156, R157). -/

namespace Sys2Proof.Machine

/-- The machine at an edge at which the requester presents `r`. -/
def presenting (r : Request) (done : Bool) (s : State) : State :=
  withPorts { quietEdge with reqValid := true, req := r, done := done } s

theorem reqReady_presenting (r : Request) (done : Bool) (s : State) :
    reqReady (presenting r done s) = decide (s.ctrl = .idle) :=
  Bool.and_true _

theorem hostEdge_of_present (h : HostRun) (r : Request) (rest : List HostStmt) (done : Bool) (t : State)
    (htodo : h.todo = .present r :: rest) (hstep : step (presenting r done h.machine) = .next t) :
    hostEdge h done = .next
      { machine := t, todo := if h.machine.ctrl = .idle then rest else .present r :: rest, checks := h.checks } := by
  have hports : withPorts (drivenPorts (.present r :: rest) done) h.machine = presenting r done h.machine := rfl
  simp [hostEdge, htodo, settleStmts, hports, hstep, stmtsAfterEdge, reqReady_presenting]

theorem acceptsNext_presenting (r : Request) (done : Bool) (s : State) (hseen : s.resetSeen = true)
    (hidle : s.ctrl = .idle) : AcceptsNext (presenting r done s) :=
  ⟨hseen, hidle, rfl, rfl⟩

/-- While the block is `BUSY` a presented request is not captured: the edge completes the request in flight or does
nothing. -/
theorem step_presenting_of_busy (r : Request) (done : Bool) (s : State) (hseen : s.resetSeen = true)
    (hbusy : s.ctrl = .busy) : ∃ t, step (presenting r done s) = .next t ∧ captured t = captured s := by
  cases done with
  | true =>
    have hcomplete : CompletesNext (presenting r true s) := ⟨hseen, hbusy, rfl, rfl⟩
    refine ⟨_, step_of_complete _ (edgeKind_of_completesNext _ hcomplete), ?_⟩
    rw [completeWith_eq]
    rfl
  | false => exact ⟨_, step_of_hold _ (edgeKind_of_busy_not_done _ hseen hbusy rfl rfl), rfl⟩

end Sys2Proof.Machine

open Sys2Proof.Machine

/-- Settles O40: `req_ready` follows `STATE`, so the statement is dropped exactly at the edge that captures its request. -/
theorem presentedRequestIsHeldUntilAccepted : Obligations.PresentedRequestIsHeldUntilAccepted := by
  intro h r rest done hseen htodo
  constructor
  · intro hbusy
    obtain ⟨t, hstep, hcaptured⟩ := step_presenting_of_busy r done h.machine hseen hbusy
    exact ⟨_, hostEdge_of_present h r rest done t htodo hstep, by simp [hbusy], hcaptured⟩
  · intro hidle
    have hstep := step_of_accept _ (edgeKind_of_acceptsNext _ (acceptsNext_presenting r done h.machine hseen hidle))
    exact ⟨_, hostEdge_of_present h r rest done _ htodo hstep, by simp [hidle], rfl, rfl⟩

end

section
/-! The Radix converter (40_converters.md rules R75 to R77): what `RADIX` says of `n` from what it says of `n / 2`. -/

namespace Sys2Proof.Machine

theorem bitLength_of_pos (n : Nat) (h : 0 < n) : bitLength n = bitLength (n / 2) + 1 := by
  obtain rfl | h2 : n = 1 ∨ 2 ≤ n := by omega
  · decide
  · have hlog : n.log2 = (n / 2).log2 + 1 := by rw [Nat.log2_def, if_pos h2]
    simp [bitLength, h.ne', show n / 2 ≠ 0 by omega, hlog]

/-- The last digit is the parity, the digits before it are those of the half. -/
theorem radix_of_pos (n : Nat) (h : 0 < n) : radix n = radix (n / 2) ++ [decide (n % 2 = 1)] := by
  rw [radix, bitLength_of_pos n h, radixLoop, if_neg h.ne', radixLoop_acc, ← radix]

/-- 40_converters.md rule R76: `RADIX` never rounds. -/
@[simp] theorem strValue_radix (n : Nat) : strValue (radix n) = n := by
  induction n using Nat.strong_induction_on with
  | _ n ih =>
    obtain rfl | hpos := n.eq_zero_or_pos
    · rfl
    · have hdigit : strValue [decide (n % 2 = 1)] = n % 2 := by
        obtain h | h := n.mod_two_eq_zero_or_one <;> simp [h, strValue_cons]
      rw [radix_of_pos n hpos, strValue_append, ih (n / 2) (by omega), hdigit, List.length_singleton, pow_one]
      omega

/-- 40_converters.md rule R75: no leading zero. -/
theorem radix_head (n : Nat) (h : 0 < n) : (radix n).head? = some true := by
  induction n using Nat.strong_induction_on with
  | _ n ih =>
    obtain rfl | h2 : n = 1 ∨ 2 ≤ n := by omega
    · rfl
    · rw [radix_of_pos n h, List.head?_append, ih (n / 2) (by omega) (by omega)]
      rfl

/-- A leading 1 bounds the value from below. -/
theorem two_pow_le_strValue_of_head (s : BitStr) (h : s.head? = some true) : 2 ^ (s.length - 1) ≤ strValue s := by
  cases s with
  | nil => simp at h
  | cons b s =>
    obtain rfl : b = true := by simpa using h
    simp [strValue_cons]

theorem radix_length_bounds (n : Nat) (h : 0 < n) :
    2 ^ ((radix n).length - 1) ≤ n ∧ n < 2 ^ (radix n).length := by
  have hlow := two_pow_le_strValue_of_head _ (radix_head n h)
  have hhigh := strValue_lt (radix n)
  rw [strValue_radix] at hlow hhigh
  exact ⟨hlow, hhigh⟩

end Sys2Proof.Machine

open Sys2Proof.Machine

/-- Settles O14: value and leading digit by induction from `n / 2` to `n`; together they fix the length. -/
theorem radixIsExactNumeral : Obligations.RadixIsExactNumeral := by
  refine ⟨fun n => ⟨strValue_radix n, radix_head n, radix_length_bounds n⟩, radix_zero, ?_⟩
  decide

end

section
/-! The Fractional-to-binary converter (40_converters.md rules R78 to R82): the multiply-and-extract loop is long division,
and the variant that stops at remainder 0 leaves out zeros only. -/

namespace Sys2Proof.Machine

/-! ### The closed form -/

/-- One iteration is one step of long division: the digit is the quotient of `2 * r`, the next remainder its remainder. -/
theorem fracLoop_succ (den n r : Nat) (h : r < den) :
    fracLoop den (n + 1) r = decide (2 * r / den % 2 = 1) :: fracLoop den n (2 * r % den) := by
  rw [fracLoop]
  split
  case isTrue hle =>
    have hquot : 2 * r / den = 1 := Nat.div_eq_of_lt_le (by omega) (by omega)
    have hrem : 2 * r % den = 2 * r - den := by rw [Nat.mod_eq_sub_mod hle, Nat.mod_eq_of_lt (by omega)]
    simp [hquot, hrem]
  case isFalse hgt =>
    have hlt : 2 * r < den := by omega
    simp [Nat.div_eq_of_lt hlt, Nat.mod_eq_of_lt hlt]

/-- Taking off the integer part of `m / den` changes the quotient of the doubled fraction by an even number. -/
theorem mod_mul_two_pow_div_mod_two (m den k : Nat) (h : 0 < den) :
    m % den * 2 ^ (k + 1) / den % 2 = m * 2 ^ (k + 1) / den % 2 := by
  have hsplit : m * 2 ^ (k + 1) = m % den * 2 ^ (k + 1) + den * (2 * (m / den * 2 ^ k)) := by
    conv_lhs => rw [← Nat.mod_add_div m den]
    ring
  rw [hsplit, Nat.add_mul_div_left _ _ h, Nat.add_mul_mod_self_left]

/-- 40_converters.md rule R82: digit `i` of the loop, counted from 0. -/
theorem fracLoop_getElem? (den n r i : Nat) (h : r < den) (hi : i < n) :
    (fracLoop den n r)[i]? = some (decide (r * 2 ^ (i + 1) / den % 2 = 1)) := by
  have hden : 0 < den := by omega
  induction n generalizing r i with
  | zero => omega
  | succ n ih =>
    rw [fracLoop_succ den n r h]
    cases i with
    | zero => simp [Nat.mul_comm]
    | succ i =>
      have hpow : 2 * r * 2 ^ (i + 1) = r * 2 ^ (i + 1 + 1) := by ring
      rw [List.getElem?_cons_succ, ih _ i (Nat.mod_lt _ hden) (by omega), mod_mul_two_pow_div_mod_two _ _ _ hden, hpow]

theorem frac_getElem? (num den n i : Nat) (h : num < den) (hi : i < n) :
    (frac num den n)[i]? = some (decide (num * 2 ^ (i + 1) / den % 2 = 1)) :=
  fracLoop_getElem? den n num i h hi

@[simp] theorem numeral_length (n m : Nat) : (numeral n m).length = n := by
  simp [numeral]

theorem numeral_getElem? (n m i : Nat) (hi : i < n) :
    (numeral n m)[i]? = some (decide (m / 2 ^ (n - 1 - i) % 2 = 1)) := by
  simp [numeral, hi]

/-- Dropping the low digits of `floor(num * 2^n / den)` leaves the quotient at the lower precision. -/
theorem mul_two_pow_div_div_two_pow (num den n i : Nat) (hi : i < n) :
    num * 2 ^ n / den / 2 ^ (n - 1 - i) = num * 2 ^ (i + 1) / den := by
  have hpow : 2 ^ n = 2 ^ (i + 1) * 2 ^ (n - 1 - i) := by rw [← pow_add]; congr 1; omega
  rw [Nat.div_div_eq_div_mul, hpow, ← Nat.mul_assoc, Nat.mul_div_mul_right _ _ (Nat.two_pow_pos _)]

/-- 40_converters.md rule R82: `FRAC` is the numeral of the floor. -/
theorem frac_eq_numeral (num den n : Nat) (h : num < den) : frac num den n = numeral n (num * 2 ^ n / den) := by
  refine List.ext_getElem? fun i => ?_
  obtain hi | hi := Nat.lt_or_ge i n
  · rw [frac_getElem? num den n i h hi, numeral_getElem? n _ i hi, mul_two_pow_div_div_two_pow num den n i hi]
  · rw [List.getElem?_eq_none (by simpa using hi), List.getElem?_eq_none (by simpa using hi)]

/-! ### Stopping at remainder 0 -/

theorem fracLoop_zero (den n : Nat) (h : 0 < den) : fracLoop den n 0 = zeros n := by
  induction n with
  | zero => rfl
  | succ n ih => simpa [fracLoop, h.ne', zeros, List.replicate_succ] using ih

theorem rpad_nil (n : Nat) : rpad [] n = zeros n := by
  simp [rpad, zeros]

theorem rpad_cons (b : Bool) (s : BitStr) (n : Nat) : rpad (b :: s) (n + 1) = b :: rpad s n := by
  have hmin : min (n - s.length) (n + 1) = min (n - s.length) n := by omega
  simp [rpad, zeros, List.take_append, hmin]

/-- 40_converters.md rule R79: what the loop would still answer once the remainder is 0 is the padding. -/
theorem rpad_fracStopping (den n r : Nat) (h : 0 < den) : rpad (fracStopping den n r) n = fracLoop den n r := by
  induction n generalizing r with
  | zero => rfl
  | succ n ih =>
    rw [fracStopping]
    split
    case isTrue hzero => rw [hzero, fracLoop_zero den _ h, rpad_nil]
    case isFalse =>
      rw [fracLoop]
      split <;> rw [rpad_cons, ih]

end Sys2Proof.Machine

open Sys2Proof.Machine

/-- Settles O15: digit `i` of both strings is `floor(F * 2^i / D) mod 2`. -/
theorem fracHasClosedForm : Obligations.FracHasClosedForm := by
  intro num den n h
  refine ⟨frac_eq_numeral num den n h, fun i h1 hi => ?_⟩
  rw [frac_getElem? num den n (i - 1) h (by omega), Nat.sub_add_cancel h1]

/-- Settles O16: the two loops run alike until the remainder is 0, and from there the full one answers zeros only. -/
theorem fracMayStopAtZeroRemainder : Obligations.FracMayStopAtZeroRemainder := by
  intro num den n h
  have hden : 0 < den := by omega
  refine ⟨rpad_fracStopping den n num hden, frac_length num den n, ?_⟩
  rintro rfl
  exact fracLoop_zero den n hden

end

section
/-! The fields of an output string as numbers: parts of a string, padding, the exponent field (41_encoder.md rule R99) and the
guard-bit rule (rule R100). -/

namespace Sys2Proof.Machine

/-! ### Parts of a string -/

theorem strValue_append_div (s t : BitStr) : strValue (s ++ t) / 2 ^ t.length = strValue s := by
  rw [strValue_append, Nat.mul_comm, Nat.mul_add_div (Nat.two_pow_pos _), Nat.div_eq_of_lt (strValue_lt t),
    Nat.add_zero]

theorem strValue_append_mod (s t : BitStr) : strValue (s ++ t) % 2 ^ t.length = strValue t := by
  rw [strValue_append, Nat.mul_comm, Nat.mul_add_mod, Nat.mod_eq_of_lt (strValue_lt t)]

theorem strValue_take (s : BitStr) (n : Nat) : strValue (s.take n) = strValue s / 2 ^ (s.length - n) := by
  have h := strValue_append_div (s.take n) (s.drop n)
  rw [List.take_append_drop, List.length_drop] at h
  exact h.symm

@[simp] theorem strValue_singleton (b : Bool) : strValue [b] = b.toNat := by
  simp [strValue_cons]

theorem strValue_lpad (s : BitStr) (n : Nat) : strValue (lpad s n) = strValue s := by
  simp [lpad, strValue_append]

theorem strValue_rpad (s : BitStr) (n : Nat) : strValue (rpad s n) = strValue s * 2 ^ n / 2 ^ s.length := by
  simp [rpad, strValue_take, strValue_append]

theorem strValue_rpad_of_length_le (s : BitStr) (n : Nat) (h : s.length ≤ n) :
    strValue (rpad s n) = strValue s * 2 ^ (n - s.length) := by
  rw [strValue_rpad, Nat.mul_div_assoc _ (Nat.pow_dvd_pow 2 h), Nat.pow_div h Nat.two_pos]

theorem toNat_getD_eq (s : BitStr) (k : Nat) (h : k < s.length) :
    (s.getD k false).toNat = strValue s / 2 ^ (s.length - 1 - k) % 2 := by
  rw [← testBit_strValue s k h, Nat.toNat_testBit]

/-- Padding on the right reads a missing character as `'0'`. -/
theorem rpad_eq_map_getD (s : BitStr) (n : Nat) : rpad s n = (List.range n).map (fun i => s.getD i false) := by
  refine List.ext_getElem (by simp) fun i hi _ => ?_
  have hin : i < n := by simpa using hi
  rw [List.getElem_map, List.getElem_range]
  simp only [rpad, zeros, List.getElem_take, List.getElem_append, List.getElem_replicate]
  split
  case isTrue h => rw [List.getD_eq_getElem _ _ h]
  case isFalse h => rw [List.getD_eq_default _ _ (by omega)]

/-! ### The exponent field -/

theorem strValue_expField (k : ClassConst) (biased : Nat) : strValue (expField k biased) = biased := by
  rw [expField, strValue_lpad, strValue_radix]

/-! ### The guard-bit rule -/

/-- The last of the `f + 1` characters of `M` takes the place of the one before it. -/
theorem strValue_roundGuard (f : Nat) (mb : BitStr) (hf : 1 ≤ f) :
    strValue (roundGuard f mb) = 2 * (strValue (rpad mb (f + 1)) / 4) + strValue (rpad mb (f + 1)) % 2 := by
  have hguard := toNat_getD_eq (rpad mb (f + 1)) f (by simp)
  have htwo : f + 1 - (f - 1) = 2 := by omega
  simp only [rpad_length, Nat.add_sub_cancel, Nat.sub_self, pow_zero, Nat.div_one] at hguard
  simp only [roundGuard, strValue_append, strValue_singleton, hguard, strValue_take, rpad_length, htwo,
    List.length_singleton, pow_one]
  omega

/-- With no more than `f` mantissa bits the guard bit is a padding zero. -/
theorem even_strValue_roundGuard (f : Nat) (mb : BitStr) (hf : 1 ≤ f) (h : mb.length ≤ f) :
    strValue (roundGuard f mb) % 2 = 0 := by
  have heven : strValue (rpad mb (f + 1)) % 2 = 0 := by
    rw [strValue_rpad_of_length_le mb _ (by omega), show f + 1 - mb.length = f - mb.length + 1 by omega, pow_succ,
      ← Nat.mul_assoc, Nat.mul_mod_left]
  rw [strValue_roundGuard f mb hf, heven]
  omega

/-- Nothing is carried: the value moves by the guard bit minus the bit it overwrites. -/
theorem strValue_roundGuard_add_last (f : Nat) (mb : BitStr) (hf : 1 ≤ f) :
    strValue (roundGuard f mb) + ((rpad mb (f + 1)).getD (f - 1) false).toNat =
      strValue ((rpad mb (f + 1)).take f) + ((rpad mb (f + 1)).getD f false).toNat := by
  have hguard := toNat_getD_eq (rpad mb (f + 1)) f (by simp)
  have hlast := toNat_getD_eq (rpad mb (f + 1)) (f - 1) (by simp)
  have hone : f - (f - 1) = 1 := by omega
  have hone' : f + 1 - f = 1 := by omega
  simp only [rpad_length, Nat.add_sub_cancel, hone, Nat.sub_self, pow_zero, pow_one, Nat.div_one] at hguard hlast
  rw [strValue_roundGuard f mb hf, strValue_take, rpad_length, hone', hguard, hlast]
  omega

theorem roundGuard_of_all_ones (f : Nat) (mb : BitStr) (hf : 1 ≤ f)
    (h : rpad mb (f + 1) = List.replicate (f + 1) true) : roundGuard f mb = List.replicate f true := by
  obtain ⟨g, rfl⟩ := Nat.exists_eq_add_of_le' hf
  simp [roundGuard, h, List.replicate_succ']

end Sys2Proof.Machine

open Sys2Proof.Machine

/-- Settles O19: padding on the left keeps the value, and a number below `2^W_E` has at most `W_E` digits. -/
theorem exponentFieldIsPaddedNumeral : Obligations.ExponentFieldIsPaddedNumeral :=
  fun k biased h => ⟨expField_length k biased h, strValue_expField k biased⟩

/-- Settles O20: the value of the result is `2 * (M / 4) + M mod 2`, from which the parity and the exchange of the last bit
follow. -/
theorem guardBitReplacesLastBit : Obligations.GuardBitReplacesLastBit := by
  refine ⟨fun f mb m hf hm => ?_, fun s => (runsTo_iff _ s _ _ _).2 (by decide)⟩
  rw [← rpad_eq_map_getD] at hm
  subst hm
  exact ⟨roundGuard_length f mb hf, rfl, strValue_roundGuard_add_last f mb hf, roundGuard_of_all_ones f mb hf,
    even_strValue_roundGuard f mb hf⟩

end

section
/-! The sign stage and the split of the magnitude (41_encoder.md rules R93, R94), and zero at a legal code (rule R92). -/

namespace Sys2Proof.Machine

/-- For a legal class the sign is put in front of an outcome that does not depend on it. -/
theorem encodeDigits_eq_map_cons (k : ClassConst) (int : Nat) (ib fb : BitStr) :
    ∃ rest : Except ErrorClass BitStr, ∀ sign, encodeDigits k sign int ib fb = rest.map (sign :: ·) := by
  unfold encodeDigits
  cases locatePoint int ib fb with
  | error x => exact ⟨.error x, fun _ => rfl⟩
  | ok em =>
    obtain ⟨e, mb⟩ := em
    cases hb : biasedExponent k e with
    | error x => exact ⟨.error x, fun _ => by simp only [hb]; rfl⟩
    | ok biased =>
      exact ⟨.ok (expField k biased ++ intBitStr k biased ++ roundGuard k.fracWidth mb), fun _ => by
        simp only [hb]; rfl⟩

theorem encodeFn_eq_map_cons (prec : BitVec 8) (c : Nat) (q : Int) :
    ∃ rest : Except ErrorClass BitStr, ∀ sign, encodeFn prec sign c q = rest.map (sign :: ·) := by
  unfold encodeFn
  cases precClass prec with
  | none => exact ⟨.error .cfgErr, fun _ => rfl⟩
  | some p =>
    by_cases hc : c = 0
    · exact ⟨.error .valErr, fun _ => by simp only [encodeClass, if_pos hc]; rfl⟩
    · obtain ⟨rest, hrest⟩ := encodeDigits_eq_map_cons (classConst p) (magInt c q) (radix (magInt c q))
        (frac (magFrac c q) (magDen q) (fracDigits p))
      exact ⟨rest, fun sign => by simp only [encodeClass, if_neg hc, hrest]⟩

theorem magInt_eq_floor (c : Nat) (q : Int) : magInt c q = ⌊magnitude c q⌋₊ := by
  rw [magInt_eq_div, magnitude_eq_div, Nat.floor_div_eq_div]

theorem magFrac_lt (c : Nat) (q : Int) : magFrac c q < magDen q := by
  rw [magFrac_eq_mod]
  exact Nat.mod_lt _ (magDen_pos q)

theorem magFrac_add_magInt (c : Nat) (q : Int) : magFrac c q + magDen q * magInt c q = magNum c q := by
  rw [magFrac_eq_mod, magInt_eq_div, Nat.mod_add_div]

theorem magFrac_div_magDen (c : Nat) (q : Int) :
    (magFrac c q : ℚ) / (magDen q : ℚ) = magnitude c q - (magInt c q : ℚ) := by
  have hD : (magDen q : ℚ) ≠ 0 := Nat.cast_ne_zero.2 (magDen_pos q).ne'
  rw [magnitude_eq_div, ← magFrac_add_magInt]
  push_cast
  field_simp
  ring

theorem encodeClass_zero (p : PrecClass) (sign : Bool) (q : Int) : encodeClass p sign 0 q = .error .valErr :=
  if_pos rfl

theorem exec_instrOf_eq_of_magnitude_eq (p : PrecClass) (sign : Bool) (c c' : Nat) (q q' : Int) (s : State)
    (h : magnitude c q = magnitude c' q') : exec (instrOf p sign c q) s = exec (instrOf p sign c' q') s := by
  simp only [exec_eq, encodeRequest_instrOf, encodeOf, encodeFn_eq_of_magnitude_eq _ sign c c' q q' h]

end Sys2Proof.Machine

open Sys2Proof.Machine

/-- Settles O17: past the sign character ENCODE is one function of the code and the value. -/
theorem signIsFirstCharacterOnly : Obligations.SignIsFirstCharacterOnly := by
  intro prec c q
  obtain ⟨rest, hrest⟩ := encodeFn_eq_map_cons prec c q
  cases rest with
  | error x => exact .inl ⟨x, hrest false, hrest true⟩
  | ok str => exact .inr ⟨str, hrest false, hrest true⟩

/-- Settles O18: `I` and `F` are quotient and remainder of the two naturals whose ratio is `|v|`. -/
theorem magnitudeSplitIsExact : Obligations.MagnitudeSplitIsExact := by
  intro c q
  refine ⟨magInt_eq_floor c q, magFrac_div_magDen c q, magFrac_lt c q, fun h => ?_, fun h => ?_⟩
  · exact ⟨if_pos h, if_pos h, magDen_of_nonneg q h⟩
  · exact ⟨rfl, if_neg (by omega), if_neg (by omega)⟩

/-- Settles O21: the integer part and the fraction digits are functions of the magnitude. -/
theorem spellingDoesNotChangeResponse : Obligations.SpellingDoesNotChangeResponse := by
  refine ⟨encodeFn_eq_of_magnitude_eq, exec_instrOf_eq_of_magnitude_eq, fun p sign q => ?_, fun s => ?_⟩
  · rw [encodeFn_classCode, encodeClass_zero]
  · exact exec_instrOf_eq_of_magnitude_eq .p16 false 15 150 (-1) (-2) s (by norm_num [magnitude])

end

section
/-! ENCODE by the magnitude alone (41_encoder.md rules R96 to R98, R105): the digits it works on are the numeral of
`floor(|v| * 2^N)`, whose first `'1'` gives the exponent `floor(log2 |v|)`. -/

namespace Sys2Proof.Machine

/-! ### The digits -/

theorem strValue_fracLoop (den n r : Nat) (h : r < den) : strValue (fracLoop den n r) = r * 2 ^ n / den := by
  induction n generalizing r with
  | zero => simpa [fracLoop] using (Nat.div_eq_of_lt h).symm
  | succ n ih =>
    have hden : 0 < den := by omega
    have hlt : 2 * r / den < 2 := (Nat.div_lt_iff_lt_mul hden).2 (by omega)
    have hdigit : (decide (2 * r / den % 2 = 1)).toNat = 2 * r / den := by
      obtain h0 | h1 := Nat.le_one_iff_eq_zero_or_eq_one.1 (Nat.le_of_lt_succ hlt)
      · simp [h0]
      · simp [h1]
    have hsplit : r * 2 ^ (n + 1) = 2 * r % den * 2 ^ n + den * (2 * r / den * 2 ^ n) := by
      calc r * 2 ^ (n + 1) = 2 * r * 2 ^ n := by ring
        _ = (2 * r % den + den * (2 * r / den)) * 2 ^ n := by rw [Nat.mod_add_div]
        _ = 2 * r % den * 2 ^ n + den * (2 * r / den * 2 ^ n) := by ring
    rw [fracLoop_succ den n r h, strValue_cons, hdigit, ih _ (Nat.mod_lt _ hden), fracLoop_length, hsplit,
      Nat.add_mul_div_left _ _ hden, Nat.add_comm]

/-- The integer digits and the fraction digits together are the numeral of `floor(|v| * 2^n)`. -/
theorem strValue_radix_append_frac (c : Nat) (q : Int) (n : Nat) :
    strValue (radix (magInt c q) ++ frac (magFrac c q) (magDen q) n) = ⌊magnitude c q * 2 ^ n⌋₊ := by
  have hcast : magnitude c q * 2 ^ n = ((magNum c q * 2 ^ n : Nat) : ℚ) / (magDen q : Nat) := by
    rw [magnitude_eq_div]
    push_cast
    ring
  have hsplit : magNum c q * 2 ^ n = magFrac c q * 2 ^ n + magDen q * (magInt c q * 2 ^ n) := by
    rw [← magFrac_add_magInt c q]
    ring
  rw [hcast, Nat.floor_div_eq_div, hsplit, Nat.add_mul_div_left _ _ (magDen_pos q), strValue_append, strValue_radix,
    frac_length, frac, strValue_fracLoop _ _ _ (magFrac_lt c q), Nat.add_comm]

/-! ### The first `'1'` -/

theorem locatePoint_of_strValue_eq_zero (int : Nat) (fb : BitStr) (h : strValue (radix int ++ fb) = 0) :
    locatePoint int (radix int) fb = .error .rangeUnf := by
  rw [strValue_append, strValue_radix, Nat.add_eq_zero_iff] at h
  obtain ⟨hint, hfb⟩ := h
  have hint0 : int = 0 := by simpa using hint
  simp [locatePoint, hint0, (find1_none_iff fb).2 hfb]

/-- The mantissa bits are what follows the first `'1'`; the exponent counts them from the binary point. -/
theorem locatePoint_of_strValue_ne_zero (int : Nat) (fb : BitStr) (h : strValue (radix int ++ fb) ≠ 0) :
    ∃ mb : BitStr, locatePoint int (radix int) fb = .ok ((mb.length : Int) - fb.length, mb) ∧
      2 ^ mb.length + strValue mb = strValue (radix int ++ fb) := by
  obtain rfl | hpos := Nat.eq_zero_or_pos int
  · rw [radix_zero, List.nil_append] at h ⊢
    obtain ⟨j, hj⟩ := Option.ne_none_iff_exists'.1 (mt (find1_none_iff fb).1 h)
    have hfb := find1_some fb j hj
    have hlen : fb.length = j + ((fb.drop (j + 1)).length + 1) := by
      conv_lhs => rw [hfb]
      simp
    refine ⟨fb.drop (j + 1), ?_, ?_⟩
    · simp only [locatePoint, lt_irrefl, if_false, hj]
      congr 2
      omega
    · conv_rhs => rw [hfb]
      simp [strValue_append, strValue_cons]
  · obtain ⟨rest, hrest⟩ : ∃ rest, radix int = true :: rest := by
      simpa [List.head?_eq_some_iff] using radix_head int hpos
    refine ⟨rest ++ fb, ?_, ?_⟩
    · simp [locatePoint, hpos, hrest]
    · simp [hrest, strValue_cons]

/-! ### The exponent as a logarithm -/

theorem two_pow_le_iff_le_log (m : ℚ) (n : Nat) (hm : 0 < m) : 2 ^ n ≤ m ↔ (n : Int) ≤ Int.log 2 m := by
  rw [← Int.zpow_le_iff_le_log Nat.one_lt_two hm, zpow_natCast, Nat.cast_ofNat]

theorem one_div_two_pow_le_iff_le_log (m : ℚ) (n : Nat) (hm : 0 < m) :
    1 / 2 ^ n ≤ m ↔ -(n : Int) ≤ Int.log 2 m := by
  rw [← Int.zpow_le_iff_le_log Nat.one_lt_two hm, zpow_neg, zpow_natCast, Nat.cast_ofNat, one_div]

/-- The length of the numeral of `floor(m * 2^n)` tells the binade of `m`. -/
theorem log_eq_of_floor_mul_two_pow (m : ℚ) (n k v : Nat) (hv : v < 2 ^ k) (h : 2 ^ k + v = ⌊m * 2 ^ n⌋₊) :
    Int.log 2 m = (k : Int) - n := by
  have hlow : (2 : ℚ) ^ k ≤ m * 2 ^ n := by
    have hle := (Nat.le_floor_iff' (Nat.two_pow_pos k).ne').1 (h ▸ Nat.le_add_right _ v)
    exact_mod_cast hle
  have hhigh : m * 2 ^ n < 2 ^ (k + 1) := by
    have hlt := Nat.lt_of_floor_lt (show ⌊m * 2 ^ n⌋₊ < 2 ^ (k + 1) by rw [← h, pow_succ]; omega)
    exact_mod_cast hlt
  have hn : (0 : ℚ) < 2 ^ n := by positivity
  have hm : 0 < m := pos_of_mul_pos_left ((by positivity : (0 : ℚ) < 2 ^ k).trans_le hlow) hn.le
  have h1 : (k : Int) - n ≤ Int.log 2 m := by
    rw [← Int.zpow_le_iff_le_log Nat.one_lt_two hm, Nat.cast_ofNat, zpow_sub₀ two_ne_zero, zpow_natCast, zpow_natCast,
      div_le_iff₀ hn]
    exact hlow
  have h2 : Int.log 2 m < (k + 1 : Nat) - n := by
    rw [← Int.lt_zpow_iff_log_lt Nat.one_lt_two hm, Nat.cast_ofNat, zpow_sub₀ two_ne_zero, zpow_natCast, zpow_natCast,
      lt_div_iff₀ hn]
    exact hhigh
  push_cast at h2
  omega

/-! ### The two bounds of a class -/

theorem leastMagnitude_pos (p : PrecClass) : 0 < leastMagnitude p := by
  unfold leastMagnitude; positivity

theorem overflowMagnitude_pos (p : PrecClass) : 0 < overflowMagnitude p := by
  unfold overflowMagnitude; positivity

theorem leastMagnitude_le_one (p : PrecClass) : leastMagnitude p ≤ 1 :=
  div_le_one_of_le₀ (one_le_pow₀ one_le_two) (by positivity)

theorem one_le_overflowMagnitude (p : PrecClass) : 1 ≤ overflowMagnitude p :=
  one_le_pow₀ one_le_two

theorem fracDigits_lt_bias (p : PrecClass) : fracDigits p < (classConst p).bias := by
  cases p <;> decide

theorem bias_lt_two_pow_expWidth (p : PrecClass) : (classConst p).bias < 2 ^ (classConst p).expWidth := by
  cases p <;> decide

theorem leastMagnitude_le_iff (p : PrecClass) (m : ℚ) (hm : 0 < m) :
    leastMagnitude p ≤ m ↔ -(fracDigits p : Int) ≤ Int.log 2 m :=
  one_div_two_pow_le_iff_le_log m (fracDigits p) hm

theorem overflowMagnitude_le_iff (p : PrecClass) (m : ℚ) (hm : 0 < m) :
    overflowMagnitude p ≤ m ↔ (2 ^ (classConst p).expWidth : Nat) ≤ Int.log 2 m + (classConst p).bias := by
  have hlt := bias_lt_two_pow_expWidth p
  rw [overflowMagnitude, two_pow_le_iff_le_log m _ hm]
  omega

theorem floor_mul_two_pow_fracDigits_eq_zero_iff (p : PrecClass) (m : ℚ) :
    ⌊m * 2 ^ fracDigits p⌋₊ = 0 ↔ m < leastMagnitude p := by
  rw [Nat.floor_eq_zero, leastMagnitude, lt_div_iff₀ (by positivity)]

/-- Below `2^-N` every digit is 0 (41_encoder.md rule R105). -/
theorem digits_eq_zero_of_lt_leastMagnitude (p : PrecClass) (c : Nat) (q : Int)
    (h : magnitude c q < leastMagnitude p) :
    magInt c q = 0 ∧ magFrac c q * 2 ^ fracDigits p / magDen q = 0 := by
  have hzero := (floor_mul_two_pow_fracDigits_eq_zero_iff p _).2 h
  rw [← strValue_radix_append_frac, strValue_append, strValue_radix, frac_length, frac,
    strValue_fracLoop _ _ _ (magFrac_lt c q), Nat.add_eq_zero_iff] at hzero
  obtain ⟨hint, hfrac⟩ := hzero
  exact ⟨by simpa using hint, hfrac⟩

/-! ### ENCODE by magnitude -/

theorem pos_of_magnitude_pos (c : Nat) (q : Int) (h : 0 < magnitude c q) : 0 < c := by
  have hc : c ≠ 0 := mt (magnitude_eq_zero_iff c q).2 h.ne'
  omega

theorem magnitude_pos (c : Nat) (q : Int) (h : 0 < c) : 0 < magnitude c q := by
  unfold magnitude; positivity

theorem biasedExponent_of_lt (k : ClassConst) (e : Int) (h0 : 0 ≤ e + k.bias)
    (h : e + k.bias < (2 ^ k.expWidth : Nat)) : biasedExponent k e = .ok (e + k.bias).toNat := by
  push_cast at h
  rw [biasedExponent, if_neg (by omega), if_neg (by omega)]

theorem biasedExponent_of_le (k : ClassConst) (e : Int) (h : (2 ^ k.expWidth : Nat) ≤ e + k.bias) :
    biasedExponent k e = .error .rangeOvf := by
  have hpos : (0 : Int) < 2 ^ k.expWidth := by positivity
  push_cast at h
  rw [biasedExponent, if_neg (by omega), if_pos (by omega)]

theorem encodeClass_of_pos (p : PrecClass) (sign : Bool) (c : Nat) (q : Int) (hc : 0 < c) :
    encodeClass p sign c q =
      encodeDigits (classConst p) sign (magInt c q) (radix (magInt c q))
        (frac (magFrac c q) (magDen q) (fracDigits p)) :=
  if_neg hc.ne'

theorem encodeClass_of_lt_leastMagnitude (p : PrecClass) (sign : Bool) (c : Nat) (q : Int) (hc : 0 < c)
    (h : magnitude c q < leastMagnitude p) : encodeClass p sign c q = .error .rangeUnf := by
  have hzero := (floor_mul_two_pow_fracDigits_eq_zero_iff p _).2 h
  rw [← strValue_radix_append_frac] at hzero
  rw [encodeClass_of_pos p sign c q hc, encodeDigits, locatePoint_of_strValue_eq_zero _ _ hzero]

/-- From `2^-N` up there is a first `'1'`; the exponent is `floor(log2 |v|)`, and the `'1'` with the mantissa bits is the
numeral of `floor(|v| * 2^N)`. -/
theorem locatePoint_of_leastMagnitude_le (p : PrecClass) (c : Nat) (q : Int) (h : leastMagnitude p ≤ magnitude c q) :
    ∃ mb : BitStr,
      locatePoint (magInt c q) (radix (magInt c q)) (frac (magFrac c q) (magDen q) (fracDigits p)) =
        .ok (Int.log 2 (magnitude c q), mb) ∧
      (mb.length : Int) = Int.log 2 (magnitude c q) + fracDigits p ∧
      2 ^ mb.length + strValue mb = ⌊magnitude c q * 2 ^ fracDigits p⌋₊ := by
  have hne := mt (floor_mul_two_pow_fracDigits_eq_zero_iff p _).1 h.not_gt
  rw [← strValue_radix_append_frac] at hne
  obtain ⟨mb, hloc, hval⟩ := locatePoint_of_strValue_ne_zero _ _ hne
  rw [strValue_radix_append_frac] at hval
  rw [frac_length] at hloc
  have hlog := log_eq_of_floor_mul_two_pow _ _ _ _ (strValue_lt mb) hval
  exact ⟨mb, by rw [hloc, hlog], by omega, hval⟩

theorem encodeClass_of_overflowMagnitude_le (p : PrecClass) (sign : Bool) (c : Nat) (q : Int)
    (h : overflowMagnitude p ≤ magnitude c q) : encodeClass p sign c q = .error .rangeOvf := by
  have hm : 0 < magnitude c q := (overflowMagnitude_pos p).trans_le h
  have hleast := (leastMagnitude_le_one p).trans ((one_le_overflowMagnitude p).trans h)
  obtain ⟨mb, hloc, -⟩ := locatePoint_of_leastMagnitude_le p c q hleast
  have hexp := biasedExponent_of_le (classConst p) _ ((overflowMagnitude_le_iff p _ hm).1 h)
  simp only [encodeClass_of_pos p sign c q (pos_of_magnitude_pos c q hm), encodeDigits, hloc, hexp]

/-- What an accepted value is encoded as: the exponent `floor(log2 |v|) + B` and the mantissa bits below the first `'1'` of
`floor(|v| * 2^N)`. -/
theorem encodeClass_of_accepted (p : PrecClass) (sign : Bool) (c : Nat) (q : Int)
    (hleast : leastMagnitude p ≤ magnitude c q) (hover : magnitude c q < overflowMagnitude p) :
    ∃ (biased : Nat) (mb : BitStr),
      encodeClass p sign c q =
        .ok (assembleOutput (classConst p) sign biased (roundGuard (classConst p).fracWidth mb)) ∧
      (biased : Int) = Int.log 2 (magnitude c q) + (classConst p).bias ∧
      biased < 2 ^ (classConst p).expWidth ∧
      (mb.length : Int) = Int.log 2 (magnitude c q) + fracDigits p ∧
      2 ^ mb.length + strValue mb = ⌊magnitude c q * 2 ^ fracDigits p⌋₊ := by
  have hm : 0 < magnitude c q := (leastMagnitude_pos p).trans_le hleast
  obtain ⟨mb, hloc, hlen, hval⟩ := locatePoint_of_leastMagnitude_le p c q hleast
  have hbias := fracDigits_lt_bias p
  have hlow := (leastMagnitude_le_iff p _ hm).1 hleast
  have hhigh := not_le.1 (mt (overflowMagnitude_le_iff p _ hm).2 hover.not_ge)
  have hnonneg : 0 ≤ Int.log 2 (magnitude c q) + (classConst p).bias := by omega
  refine ⟨_, mb, ?_, Int.toNat_of_nonneg hnonneg, by omega, hlen, hval⟩
  simp only [encodeClass_of_pos p sign c q (pos_of_magnitude_pos c q hm), encodeDigits, hloc,
    biasedExponent_of_lt (classConst p) _ hnonneg hhigh]

end Sys2Proof.Machine

end

section
/-! The status and the exponent field by magnitude (41_encoder.md rules R105, R106), and what each of the four operations does
on every operand (rules R110 to R113). -/

namespace Sys2Proof.Machine

/-! ### The fields of an assembled string -/

theorem strExponent_assembleOutput (p : PrecClass) (sign : Bool) (biased : Nat) (fr : BitStr)
    (h : biased < 2 ^ (classConst p).expWidth) :
    strExponent p (assembleOutput (classConst p) sign biased fr) = biased := by
  have hlen := expField_length (classConst p) biased h
  simp only [strExponent, assembleOutput, signStr, List.append_assoc, List.cons_append, List.nil_append,
    List.drop_succ_cons, List.drop_zero, List.take_left' hlen, strValue_expField]

theorem head?_assembleOutput (k : ClassConst) (sign : Bool) (biased : Nat) (fr : BitStr) :
    (assembleOutput k sign biased fr).head? = some sign := by
  simp [assembleOutput, signStr]

theorem intBitStr_p80 (biased : Nat) (h0 : 0 < biased) : intBitStr (classConst .p80) biased = [true] := by
  simp [intBitStr, classConst, h0.ne']

/-- The integer bit of the 80-bit class stands after the sign and the exponent field (41_encoder.md rule R102). -/
theorem getD_assembleOutput_p80 (sign : Bool) (biased : Nat) (fr : BitStr)
    (h : biased < 2 ^ (classConst .p80).expWidth) (h0 : 0 < biased) :
    (assembleOutput (classConst .p80) sign biased fr).getD 16 false = true := by
  have hlen : (signStr sign ++ expField (classConst .p80) biased).length = 16 := by
    rw [List.length_append, expField_length _ biased h]
    rfl
  rw [assembleOutput, List.append_assoc, List.getD_append_right _ _ _ _ hlen.le, hlen, intBitStr_p80 biased h0]
  rfl

/-! ### The outcome decided by the magnitude -/

theorem encodeClass_eq_rangeUnf_iff (p : PrecClass) (sign : Bool) (c : Nat) (q : Int) (hc : 0 < c) :
    encodeClass p sign c q = .error .rangeUnf ↔ magnitude c q < leastMagnitude p := by
  refine ⟨fun h => ?_, encodeClass_of_lt_leastMagnitude p sign c q hc⟩
  by_contra hlt
  obtain hover | hover := le_or_gt (overflowMagnitude p) (magnitude c q)
  · simp [encodeClass_of_overflowMagnitude_le p sign c q hover] at h
  · obtain ⟨biased, mb, hok, -⟩ := encodeClass_of_accepted p sign c q (not_lt.1 hlt) hover
    simp [hok] at h

theorem encodeClass_eq_rangeOvf_iff (p : PrecClass) (sign : Bool) (c : Nat) (q : Int) (hc : 0 < c) :
    encodeClass p sign c q = .error .rangeOvf ↔ overflowMagnitude p ≤ magnitude c q := by
  refine ⟨fun h => ?_, encodeClass_of_overflowMagnitude_le p sign c q⟩
  by_contra hover
  obtain hlt | hleast := lt_or_ge (magnitude c q) (leastMagnitude p)
  · simp [encodeClass_of_lt_leastMagnitude p sign c q hc hlt] at h
  · obtain ⟨biased, mb, hok, -⟩ := encodeClass_of_accepted p sign c q hleast (not_le.1 hover)
    simp [hok] at h

/-- An output is answered for accepted values only. -/
theorem accepted_of_encodeClass_ok (p : PrecClass) (sign : Bool) (c : Nat) (q : Int) (str : BitStr)
    (h : encodeClass p sign c q = .ok str) :
    leastMagnitude p ≤ magnitude c q ∧ magnitude c q < overflowMagnitude p := by
  obtain rfl | hc := Nat.eq_zero_or_pos c
  · simp [encodeClass_zero] at h
  · constructor
    · by_contra hlt
      simp [(encodeClass_eq_rangeUnf_iff p sign c q hc).2 (not_le.1 hlt)] at h
    · by_contra hover
      simp [encodeClass_of_overflowMagnitude_le p sign c q (not_lt.1 hover)] at h

/-- The exponent field of an output is `floor(log2 |v|) + B`; it is at least `B - N`. -/
theorem strExponent_of_encodeClass_ok (p : PrecClass) (sign : Bool) (c : Nat) (q : Int) (str : BitStr)
    (h : encodeClass p sign c q = .ok str) :
    (strExponent p str : Int) = Int.log 2 (magnitude c q) + (classConst p).bias ∧
      strExponent p str < 2 ^ (classConst p).expWidth ∧ (classConst p).bias - fracDigits p ≤ strExponent p str := by
  obtain ⟨hleast, hover⟩ := accepted_of_encodeClass_ok p sign c q str h
  obtain ⟨biased, mb, hok, hbiased, hlt, hlen, -⟩ := encodeClass_of_accepted p sign c q hleast hover
  obtain rfl := Except.ok.inj (hok.symm.trans h)
  rw [strExponent_assembleOutput p sign biased _ hlt]
  exact ⟨hbiased, hlt, by omega⟩

theorem integerBit_of_encodeClass_ok (sign : Bool) (c : Nat) (q : Int) (str : BitStr)
    (h : encodeClass .p80 sign c q = .ok str) : str.getD 16 false = true := by
  obtain ⟨hleast, hover⟩ := accepted_of_encodeClass_ok .p80 sign c q str h
  obtain ⟨biased, mb, hok, hbiased, hlt, hlen, -⟩ := encodeClass_of_accepted .p80 sign c q hleast hover
  have hbias := fracDigits_lt_bias .p80
  obtain rfl := Except.ok.inj (hok.symm.trans h)
  exact getD_assembleOutput_p80 sign biased _ hlt (by omega)

theorem exists_encodeClass_ok (p : PrecClass) (sign : Bool) (c : Nat) (q : Int)
    (hleast : leastMagnitude p ≤ magnitude c q) (hover : magnitude c q < overflowMagnitude p) :
    ∃ str, encodeClass p sign c q = .ok str := by
  obtain ⟨biased, mb, hok, -⟩ := encodeClass_of_accepted p sign c q hleast hover
  exact ⟨_, hok⟩

/-- 41_encoder.md rule R106: where the field is all ones. -/
theorem strExponent_eq_all_ones_iff (p : PrecClass) (sign : Bool) (c : Nat) (q : Int) (str : BitStr)
    (h : encodeClass p sign c q = .ok str) :
    strExponent p str = 2 ^ (classConst p).expWidth - 1 ↔
      2 ^ (2 ^ (classConst p).expWidth - (classConst p).bias - 1) ≤ magnitude c q := by
  obtain ⟨hexp, hlt, -⟩ := strExponent_of_encodeClass_ok p sign c q str h
  have hm := (leastMagnitude_pos p).trans_le (accepted_of_encodeClass_ok p sign c q str h).1
  have hbias := bias_lt_two_pow_expWidth p
  rw [two_pow_le_iff_le_log _ _ hm]
  omega

theorem leastMagnitude_le_two_pow (p : PrecClass) (n : Nat) : leastMagnitude p ≤ 2 ^ n :=
  (leastMagnitude_le_one p).trans (one_le_pow₀ one_le_two)

/-! ### What an instruction writes -/

theorem classCode_toNat (p : PrecClass) : (classCode p).toNat = classWidth p := by
  cases p <;> rfl

theorem runsTo_instrOf_of_error (p : PrecClass) (sign : Bool) (c : Nat) (q : Int) (s : State) (x : ErrorClass)
    (h : encodeClass p sign c q = .error x) : RunsTo (instrOf p sign c q) s (errorCode x) 0#7 0#80 := by
  rw [runsTo_iff, encodeRequest_instrOf, encodeOf, encodeFn_classCode, h]
  rfl

theorem runsTo_instrOf_of_ok (p : PrecClass) (sign : Bool) (c : Nat) (q : Int) (s : State) (str : BitStr)
    (h : encodeClass p sign c q = .ok str) :
    RunsTo (instrOf p sign c q) s 0#3 (BitVec.ofNat 7 (classWidth p)) (vec80 str) := by
  rw [runsTo_iff, encodeRequest_instrOf, encodeOf, encodeFn_classCode, h, ← classCode_toNat]
  rfl

/-- One statement for the four operations, with the bounds of rules R105 and R106. -/
theorem encodesClass_instrOf (p : PrecClass) :
    EncodesClass (instrOf p) p (leastMagnitude p) (overflowMagnitude p)
      (2 ^ (2 ^ (classConst p).expWidth - (classConst p).bias - 1)) := by
  intro sign c q s
  refine ⟨?_, fun hc h => ?_, fun h => ?_, fun hleast hover => ?_⟩
  · rintro rfl
    exact runsTo_instrOf_of_error p sign 0 q s .valErr (encodeClass_zero p sign q)
  · exact runsTo_instrOf_of_error p sign c q s .rangeUnf (encodeClass_of_lt_leastMagnitude p sign c q hc h)
  · exact runsTo_instrOf_of_error p sign c q s .rangeOvf (encodeClass_of_overflowMagnitude_le p sign c q h)
  · obtain ⟨biased, mb, hok, -⟩ := encodeClass_of_accepted p sign c q hleast hover
    exact ⟨_, (encodeFn_classCode p sign c q).trans hok, encodeClass_ok_length p sign c q _ hok,
      head?_assembleOutput _ sign biased _, runsTo_instrOf_of_ok p sign c q s _ hok,
      strExponent_eq_all_ones_iff p sign c q _ hok⟩

/-! ### The numbers of the four classes -/

theorem leastMagnitude_p16 : leastMagnitude .p16 = 1 / 2 ^ 11 := rfl
theorem leastMagnitude_p32 : leastMagnitude .p32 = 1 / 2 ^ 24 := rfl
theorem leastMagnitude_p64 : leastMagnitude .p64 = 1 / 2 ^ 53 := rfl
theorem leastMagnitude_p80 : leastMagnitude .p80 = 1 / 2 ^ 64 := rfl

theorem overflowMagnitude_p16 : overflowMagnitude .p16 = 2 ^ 17 := rfl
theorem overflowMagnitude_p32 : overflowMagnitude .p32 = 2 ^ 129 := rfl
theorem overflowMagnitude_p64 : overflowMagnitude .p64 = 2 ^ 1025 := rfl
theorem overflowMagnitude_p80 : overflowMagnitude .p80 = 2 ^ 16385 := rfl

/-- Powers of ten against a bound of rule R105, on naturals. -/
theorem two_pow_le_magnitude_one (n k : Nat) (h : 2 ^ n ≤ 10 ^ k) : 2 ^ n ≤ magnitude 1 k := by
  rw [magnitude, Nat.cast_one, one_mul, zpow_natCast]
  exact_mod_cast h

theorem runsTo_one_of_two_pow_le (p : PrecClass) (s : State) (k : Nat)
    (h : 2 ^ (2 ^ (classConst p).expWidth - (classConst p).bias) ≤ 10 ^ k) :
    RunsTo (instrOf p false 1 k) s 3#3 0#7 0#80 :=
  runsTo_instrOf_of_error p false 1 k s .rangeOvf
    (encodeClass_of_overflowMagnitude_le p false 1 k (two_pow_le_magnitude_one _ k h))

end Sys2Proof.Machine

open Sys2Proof Sys2Proof.Machine

/-- Settles O22: the outcome is decided by `floor(|v| * 2^N)` and by `floor(log2 |v|)`, the exponent of an output. -/
theorem statusFollowsMagnitude : Obligations.StatusFollowsMagnitude := by
  refine ⟨fun p sign c q hc => ?_, ⟨leastMagnitude_p16, leastMagnitude_p32, leastMagnitude_p64, leastMagnitude_p80⟩,
    ⟨overflowMagnitude_p16, overflowMagnitude_p32, overflowMagnitude_p64, overflowMagnitude_p80⟩, by decide⟩
  rw [encodeFn_classCode]
  refine ⟨encodeClass_eq_rangeUnf_iff p sign c q hc, fun h => ?_, encodeClass_eq_rangeOvf_iff p sign c q hc,
    fun hleast hover => ?_⟩
  · exact digits_eq_zero_of_lt_leastMagnitude p c q h
  · have hm := magnitude_pos c q hc
    obtain ⟨str, hok⟩ := exists_encodeClass_ok p sign c q hleast hover
    obtain ⟨hexp, hlt, hlow⟩ := strExponent_of_encodeClass_ok p sign c q str hok
    have hone := two_pow_le_iff_le_log (magnitude c q) 0 hm
    rw [pow_zero, Nat.cast_zero] at hone
    refine ⟨str, hok, hlow, by omega, fun h => ?_, fun h => ?_, ?_⟩
    · have hneg := not_le.1 (mt hone.2 h.not_ge)
      omega
    · have hnonneg := hone.1 h
      omega
    · rintro rfl
      exact integerBit_of_encodeClass_ok sign c q str hok

/-- Settles O23: the field is all ones exactly where `floor(log2 |v|)` is the greatest accepted. -/
theorem topBinadeGivesAllOnesExponent : Obligations.TopBinadeGivesAllOnesExponent := by
  refine ⟨fun p sign c q _ => ?_, fun s => (runsTo_iff _ s _ _ _).2 (by decide),
    fun s => (runsTo_iff _ s _ _ _).2 (by decide), fun s => (runsTo_iff _ s _ _ _).2 (by decide +kernel)⟩
  rw [encodeFn_classCode]
  constructor
  · rintro ⟨str, hok, hones⟩
    exact ⟨(strExponent_eq_all_ones_iff p sign c q str hok).1 hones, (accepted_of_encodeClass_ok p sign c q str hok).2⟩
  · rintro ⟨hlow, hover⟩
    obtain ⟨str, hok⟩ := exists_encodeClass_ok p sign c q ((leastMagnitude_le_two_pow p _).trans hlow) hover
    exact ⟨str, hok, (strExponent_eq_all_ones_iff p sign c q str hok).2 hlow⟩

/-- Settles O26: the half-precision case of `encodesClass_instrOf`; the rule's examples are evaluated. -/
theorem encHEncodesHalfPrecision : Obligations.EncHEncodesHalfPrecision := by
  refine ⟨fun w b => decodeRequest_encH (assembleRequest w b), ?_, fun s => ?_⟩
  · have hover : overflowMagnitude .p16 = 131072 := by norm_num [overflowMagnitude_p16]
    have hones : (2 : ℚ) ^ (2 ^ (classConst .p16).expWidth - (classConst .p16).bias - 1) = 65536 := by
      norm_num [classConst]
    have h := encodesClass_instrOf .p16
    rw [hover, hones] at h
    exact h
  · simp only [runsTo_iff]
    decide

/-- Settles O27: the single-precision case of `encodesClass_instrOf`; the rule's examples are evaluated. -/
theorem encSEncodesSinglePrecision : Obligations.EncSEncodesSinglePrecision := by
  refine ⟨fun w b => decodeRequest_encS (assembleRequest w b), encodesClass_instrOf .p32, fun s => ?_⟩
  simp only [runsTo_iff]
  decide +kernel

/-- Settles O28: the double-precision case of `encodesClass_instrOf`; 1e309 by the overflow bound, the other examples
evaluated. -/
theorem encDEncodesDoublePrecision : Obligations.EncDEncodesDoublePrecision := by
  refine ⟨fun w b => decodeRequest_encD (assembleRequest w b), encodesClass_instrOf .p64, fun s => ?_⟩
  refine ⟨runsTo_one_of_two_pow_le .p64 s 309 (by decide +kernel), ?_⟩
  simp only [runsTo_iff]
  decide +kernel

/-- Settles O29: the extended case of `encodesClass_instrOf`; an accepted exponent is not 0, so `J` is 1; 1e4933 by the
overflow bound, the other examples evaluated. -/
theorem encXEncodesExtendedPrecision : Obligations.EncXEncodesExtendedPrecision := by
  refine ⟨fun w b => decodeRequest_encX (assembleRequest w b), encodesClass_instrOf .p80,
    fun sign c q str h => integerBit_of_encodeClass_ok sign c q str h, fun s => ?_⟩
  refine ⟨runsTo_one_of_two_pow_le .p80 s 4933 (by decide +kernel), ?_⟩
  simp only [runsTo_iff]
  decide +kernel

end

section
/-! The result of an accepted value in closed form (41_encoder.md rule R107): the fields of the response, then the fraction
in the three parts of the range. -/

namespace Sys2Proof.Machine

/-! ### The fields of a response -/

/-- The value of a field with `c` on its right. -/
theorem strValue_field (a b c : BitStr) (n w : Nat) (hn : c.length = n) (hw : b.length = w) :
    strValue (a ++ b ++ c) / 2 ^ n % 2 ^ w = strValue b := by
  rw [← hn, ← hw, strValue_append_div, strValue_append_mod]

theorem vec80_toNat (s : BitStr) (h : s.length ≤ 80) : (vec80 s).toNat = strValue s :=
  Nat.mod_eq_of_lt ((strValue_lt s).trans_le (Nat.pow_le_pow_right Nat.two_pos h))

theorem classWidth_le (p : PrecClass) : classWidth p ≤ 80 := by
  cases p <;> decide

section
variable (p : PrecClass) (sign : Bool) (biased : Nat) (fr : BitStr)
  (hb : biased < 2 ^ (classConst p).expWidth) (hfr : fr.length = (classConst p).fracWidth)
include hb hfr

theorem assembleOutput_length_eq_classWidth :
    (assembleOutput (classConst p) sign biased fr).length = classWidth p := by
  rw [assembleOutput_length _ sign biased fr hb, hfr, (classConst_widths p).2]

theorem vec80_assembleOutput_toNat :
    (vec80 (assembleOutput (classConst p) sign biased fr)).toNat =
      strValue (assembleOutput (classConst p) sign biased fr) :=
  vec80_toNat _ ((assembleOutput_length_eq_classWidth p sign biased fr hb hfr).trans_le (classWidth_le p))

theorem signField_assembleOutput :
    signField p (vec80 (assembleOutput (classConst p) sign biased fr)) = sign.toNat := by
  have hwidth := (classConst_widths p).2
  have h := strValue_field [] [sign] (expField (classConst p) biased ++ (intBitStr (classConst p) biased ++ fr))
    (classWidth p - 1) 1
    (by rw [List.length_append, List.length_append, expField_length _ biased hb, intBitStr_length, hfr]; omega) rfl
  rw [signField, vec80_assembleOutput_toNat p sign biased fr hb hfr]
  simpa [assembleOutput, signStr] using h

theorem exponentField_assembleOutput :
    exponentField p (vec80 (assembleOutput (classConst p) sign biased fr)) = biased := by
  have hwidth := (classConst_widths p).2
  have h := strValue_field [sign] (expField (classConst p) biased) (intBitStr (classConst p) biased ++ fr)
    (classWidth p - 1 - (classConst p).expWidth) (classConst p).expWidth
    (by rw [List.length_append, intBitStr_length, hfr]; omega) (expField_length _ biased hb)
  rw [exponentField, vec80_assembleOutput_toNat p sign biased fr hb hfr]
  simpa [assembleOutput, signStr, strValue_expField] using h

theorem fractionField_assembleOutput :
    fractionField p (vec80 (assembleOutput (classConst p) sign biased fr)) = strValue fr := by
  rw [fractionField, vec80_assembleOutput_toNat p sign biased fr hb hfr, assembleOutput, ← hfr, strValue_append_mod]

end

theorem integerBit_assembleOutput (sign : Bool) (biased : Nat) (fr : BitStr)
    (hb : biased < 2 ^ (classConst .p80).expWidth) (hfr : fr.length = (classConst .p80).fracWidth) (h0 : 0 < biased) :
    integerBit (vec80 (assembleOutput (classConst .p80) sign biased fr)) = 1 := by
  have h := strValue_field (signStr sign ++ expField (classConst .p80) biased) [true] fr 63 1 hfr rfl
  rw [integerBit, vec80_assembleOutput_toNat .p80 sign biased fr hb hfr, assembleOutput,
    intBitStr_p80 biased h0]
  exact h

/-! ### Results in units of the last place -/

theorem ulp_pos (p : PrecClass) (e : Int) : 0 < ulp p e := by
  unfold ulp; positivity

theorem resultMagnitude_eq_ulp_mul (p : PrecClass) (e : Int) (r : Nat) :
    resultMagnitude p e r = ulp p e * (2 ^ (classConst p).fracWidth + r) := by
  rw [resultMagnitude, ulp, zpow_sub₀ two_ne_zero, zpow_natCast]
  field_simp

/-- `|v|` in half units of the last place, the scale of the rule's `t`. -/
theorem eq_ulp_mul_half (p : PrecClass) (e : Int) (m : ℚ) :
    m = ulp p e * (m * (2 : ℚ) ^ (((classConst p).fracWidth : Int) + 1 - e) / 2) := by
  have hcancel : ulp p e * (2 : ℚ) ^ (((classConst p).fracWidth : Int) + 1 - e) = 2 := by
    have hexp : e - ((classConst p).fracWidth : Int) + ((classConst p).fracWidth + 1 - e) = 1 := by ring
    rw [ulp, ← zpow_add₀ two_ne_zero, hexp, zpow_one]
  linear_combination (-m / 2) * hcancel

/-- Halving a floor: the floor at one binary place less. -/
theorem floor_mul_two_pow_div (m : ℚ) (k n : Nat) : ⌊m * 2 ^ k⌋₊ / 2 ^ n = ⌊m * (2 : ℚ) ^ ((k : Int) - n)⌋₊ := by
  rw [zpow_sub₀ two_ne_zero, zpow_natCast, zpow_natCast, ← mul_div_assoc,
    ← Nat.floor_div_natCast (m * 2 ^ k) (2 ^ n), Nat.cast_pow, Nat.cast_ofNat]

/-! ### From 1 up -/

/-- The rule's `t` is the first `'1'` followed by `M`. -/
theorem floor_eq_two_pow_add_rpad (m : ℚ) (f n : Nat) (mb : BitStr) (hlen : mb.length = n + (f + 1))
    (h : 2 ^ mb.length + strValue mb = ⌊m * 2 ^ (f + 1)⌋₊) :
    ⌊m * (2 : ℚ) ^ ((f : Int) + 1 - n)⌋₊ = 2 ^ (f + 1) + strValue (rpad mb (f + 1)) := by
  have hfloor := floor_mul_two_pow_div m (f + 1) n
  rw [Nat.cast_succ] at hfloor
  rw [← hfloor, ← h, strValue_rpad, hlen, pow_add 2 n, Nat.mul_div_mul_right _ _ (Nat.two_pow_pos _),
    Nat.mul_add_div (Nat.two_pow_pos n)]

theorem strValue_roundGuard_eq_of_t (f t : Nat) (mb : BitStr) (hf : 1 ≤ f)
    (ht : t = 2 ^ (f + 1) + strValue (rpad mb (f + 1))) :
    strValue (roundGuard f mb) = 2 * (t / 4 - 2 ^ (f - 1)) + t % 2 := by
  have hpow : 2 ^ (f + 1) = 4 * 2 ^ (f - 1) := by
    rw [show f + 1 = 2 + (f - 1) by omega, pow_add]
    rfl
  rw [strValue_roundGuard f mb hf, ht, hpow]
  omega

/-- Overwriting the last bit moves `t` by -2 to 1 half units. -/
theorem roundGuard_bounds (f t : Nat) (mb : BitStr) (hf : 1 ≤ f)
    (ht : t = 2 ^ (f + 1) + strValue (rpad mb (f + 1))) :
    t ≤ 2 * (2 ^ f + strValue (roundGuard f mb)) + 2 ∧ 2 * (2 ^ f + strValue (roundGuard f mb)) ≤ t + 1 := by
  rw [strValue_roundGuard f mb hf, ht, pow_succ]
  omega

/-- With the truncation to `t` the error is above -1.5 ulp and at most 0.5 ulp. -/
theorem error_bounds_of_t (p : PrecClass) (e : Int) (m : ℚ) (r t : Nat) (hm : 0 ≤ m)
    (ht : t = ⌊m * (2 : ℚ) ^ (((classConst p).fracWidth : Int) + 1 - e)⌋₊)
    (hlow : t ≤ 2 * (2 ^ (classConst p).fracWidth + r) + 2)
    (hhigh : 2 * (2 ^ (classConst p).fracWidth + r) ≤ t + 1) :
    -(3 / 2) * ulp p e < resultMagnitude p e r - m ∧ resultMagnitude p e r - m ≤ 1 / 2 * ulp p e := by
  set y := m * (2 : ℚ) ^ (((classConst p).fracWidth : Int) + 1 - e) with hy
  have hulp := ulp_pos p e
  have hty : (t : ℚ) ≤ y := ht ▸ Nat.floor_le (by positivity)
  have hyt : y < t + 1 := ht ▸ Nat.lt_floor_add_one y
  have hlow' : (t : ℚ) ≤ 2 * (2 ^ (classConst p).fracWidth + r) + 2 := by exact_mod_cast hlow
  have hhigh' : 2 * (2 ^ (classConst p).fracWidth + (r : ℚ)) ≤ t + 1 := by exact_mod_cast hhigh
  have hdiff : resultMagnitude p e r - m = (2 ^ (classConst p).fracWidth + r - y / 2) * ulp p e := by
    rw [resultMagnitude_eq_ulp_mul, hy]
    linear_combination -eq_ulp_mul_half p e m
  rw [hdiff]
  exact ⟨mul_lt_mul_of_pos_right (by linarith) hulp, mul_le_mul_of_nonneg_right (by linarith) hulp.le⟩

/-! ### Below 1 -/

/-- With at most `f` mantissa bits `M` ends in zeros. -/
theorem strValue_roundGuard_of_length_eq (f : Nat) (mb : BitStr) (hf : 1 ≤ f) (h : mb.length = f) :
    strValue (roundGuard f mb) = 2 * (strValue mb / 2) := by
  rw [strValue_roundGuard f mb hf, strValue_rpad_of_length_le mb _ (by omega), show f + 1 - mb.length = 1 by omega]
  omega

theorem strValue_roundGuard_of_length_lt (f n : Nat) (mb : BitStr) (hf : 1 ≤ f) (h : mb.length + (n + 1) = f) :
    strValue (roundGuard f mb) = strValue mb * 2 ^ (n + 1) := by
  have hpow : strValue mb * 2 ^ (n + 2) = 4 * (strValue mb * 2 ^ n) := by ring
  have hpow' : strValue mb * 2 ^ (n + 1) = 2 * (strValue mb * 2 ^ n) := by ring
  rw [strValue_roundGuard f mb hf, strValue_rpad_of_length_le mb _ (by omega),
    show f + 1 - mb.length = n + 2 by omega, hpow, hpow']
  omega

/-- On `[1/2, 1)`: truncation at `2^-W_F`. -/
theorem resultMagnitude_of_log_eq_neg_one (p : PrecClass) (m : ℚ) (mb : BitStr)
    (hlen : mb.length = (classConst p).fracWidth)
    (h : 2 ^ mb.length + strValue mb = ⌊m * 2 ^ ((classConst p).fracWidth + 1)⌋₊) :
    resultMagnitude p (-1) (strValue (roundGuard (classConst p).fracWidth mb)) =
      (⌊m * 2 ^ (classConst p).fracWidth⌋₊ : ℚ) / 2 ^ (classConst p).fracWidth := by
  have hf := (classConst_widths p).1
  have hfloor := floor_mul_two_pow_div m ((classConst p).fracWidth + 1) 1
  rw [← h, hlen, Nat.cast_succ, Nat.cast_one, add_sub_cancel_right, zpow_natCast, pow_one] at hfloor
  have hpow : 2 ^ (classConst p).fracWidth = 2 * 2 ^ ((classConst p).fracWidth - 1) := by
    rw [mul_comm, ← pow_succ, Nat.sub_add_cancel hf]
  have hdouble : 2 ^ (classConst p).fracWidth + strValue (roundGuard (classConst p).fracWidth mb) =
      2 * ⌊m * 2 ^ (classConst p).fracWidth⌋₊ := by
    rw [← hfloor, strValue_roundGuard_of_length_eq _ mb hf hlen]
    omega
  have hcast : (2 : ℚ) ^ (classConst p).fracWidth + strValue (roundGuard (classConst p).fracWidth mb) =
      2 * ⌊m * 2 ^ (classConst p).fracWidth⌋₊ := by exact_mod_cast hdouble
  rw [resultMagnitude_eq_ulp_mul, hcast, ulp, zpow_sub₀ two_ne_zero, zpow_natCast, zpow_neg_one]
  field_simp

/-- Below 1/2: truncation at `2^-N`. -/
theorem resultMagnitude_of_log_lt_neg_one (p : PrecClass) (m : ℚ) (n : Nat) (mb : BitStr)
    (hlen : mb.length + (n + 1) = (classConst p).fracWidth)
    (h : 2 ^ mb.length + strValue mb = ⌊m * 2 ^ fracDigits p⌋₊) :
    resultMagnitude p (-((n : Int) + 2)) (strValue (roundGuard (classConst p).fracWidth mb)) =
      (⌊m * 2 ^ fracDigits p⌋₊ : ℚ) / 2 ^ fracDigits p := by
  have hf := (classConst_widths p).1
  have hscaled : 2 ^ (classConst p).fracWidth + strValue (roundGuard (classConst p).fracWidth mb) =
      ⌊m * 2 ^ fracDigits p⌋₊ * 2 ^ (n + 1) := by
    rw [← h, strValue_roundGuard_of_length_lt _ n mb hf hlen, ← hlen, pow_add]
    ring
  have hcast : (2 : ℚ) ^ (classConst p).fracWidth + strValue (roundGuard (classConst p).fracWidth mb) =
      ⌊m * 2 ^ fracDigits p⌋₊ * 2 ^ (n + 1) := by exact_mod_cast hscaled
  have hulp : ulp p (-((n : Int) + 2)) * 2 ^ (n + 1) * 2 ^ fracDigits p = 1 := by
    rw [ulp, fracDigits, ← zpow_natCast, ← zpow_natCast, ← zpow_add₀ two_ne_zero, ← zpow_add₀ two_ne_zero,
      ← zpow_zero (2 : ℚ)]
    congr 1
    push_cast
    ring
  rw [resultMagnitude_eq_ulp_mul, hcast, eq_div_iff (by positivity)]
  linear_combination (⌊m * 2 ^ fracDigits p⌋₊ : ℚ) * hulp

/-- Truncation at `2^-W_F` loses less than `2^-W_F`, which is 2 ulp in the binade below 1. -/
theorem truncation_error_bounds (p : PrecClass) (m : ℚ) (hm : 0 ≤ m) :
    -2 * ulp p (-1) < (⌊m * 2 ^ (classConst p).fracWidth⌋₊ : ℚ) / 2 ^ (classConst p).fracWidth - m ∧
      (⌊m * 2 ^ (classConst p).fracWidth⌋₊ : ℚ) / 2 ^ (classConst p).fracWidth - m ≤ 0 := by
  have hpow : (0 : ℚ) < 2 ^ (classConst p).fracWidth := by positivity
  have hulp : 2 * ulp p (-1) = 1 / 2 ^ (classConst p).fracWidth := by
    rw [ulp, zpow_sub₀ two_ne_zero, zpow_natCast, zpow_neg_one]
    field_simp
  have hfloor := Nat.floor_le (a := m * 2 ^ (classConst p).fracWidth) (by positivity)
  have hlt := Nat.lt_floor_add_one (m * 2 ^ (classConst p).fracWidth)
  constructor
  · have hlost : m < (⌊m * 2 ^ (classConst p).fracWidth⌋₊ : ℚ) / 2 ^ (classConst p).fracWidth +
        1 / 2 ^ (classConst p).fracWidth := by
      rw [← add_div, lt_div_iff₀ hpow]
      exact hlt
    linarith
  · have hkept := (div_le_iff₀ hpow).2 hfloor
    linarith

/-! ### The three parts of the range -/

section
variable (p : PrecClass) (m : ℚ) (mb : BitStr) (hm : 0 < m)
  (hlen : (mb.length : Int) = Int.log 2 m + fracDigits p)
  (hval : 2 ^ mb.length + strValue mb = ⌊m * 2 ^ fracDigits p⌋₊)
include hm hlen hval

theorem result_of_one_le (h : 1 ≤ m) :
    ∃ t : Nat, t = ⌊m * (2 : ℚ) ^ (((classConst p).fracWidth : Int) + 1 - Int.log 2 m)⌋₊ ∧
      2 ^ ((classConst p).fracWidth + 1) ≤ t ∧ t < 2 ^ ((classConst p).fracWidth + 2) ∧
      strValue (roundGuard (classConst p).fracWidth mb) = 2 * (t / 4 - 2 ^ ((classConst p).fracWidth - 1)) + t % 2 ∧
      -(3 / 2) * ulp p (Int.log 2 m) <
        resultMagnitude p (Int.log 2 m) (strValue (roundGuard (classConst p).fracWidth mb)) - m ∧
      resultMagnitude p (Int.log 2 m) (strValue (roundGuard (classConst p).fracWidth mb)) - m ≤
        1 / 2 * ulp p (Int.log 2 m) := by
  have hf := (classConst_widths p).1
  have hlog : 0 ≤ Int.log 2 m := by
    simpa using (two_pow_le_iff_le_log m 0 hm).1 (by simpa using h)
  obtain ⟨n, hn⟩ := Int.eq_ofNat_of_zero_le hlog
  rw [hn, fracDigits] at hlen
  have ht := floor_eq_two_pow_add_rpad m (classConst p).fracWidth n mb (by omega) hval
  rw [← hn] at ht
  have hM := strValue_lt (rpad mb ((classConst p).fracWidth + 1))
  rw [rpad_length] at hM
  obtain ⟨hlow, hhigh⟩ := roundGuard_bounds _ _ mb hf ht
  refine ⟨_, rfl, by omega, by rw [pow_succ _ (_ + 1)]; omega, strValue_roundGuard_eq_of_t _ _ mb hf ht, ?_⟩
  exact error_bounds_of_t p _ m _ _ hm.le rfl hlow hhigh

theorem result_of_half_le (hlow : 1 / 2 ≤ m) (hhigh : m < 1) :
    resultMagnitude p (Int.log 2 m) (strValue (roundGuard (classConst p).fracWidth mb)) =
        (⌊m * 2 ^ (classConst p).fracWidth⌋₊ : ℚ) / 2 ^ (classConst p).fracWidth ∧
      -2 * ulp p (Int.log 2 m) <
        resultMagnitude p (Int.log 2 m) (strValue (roundGuard (classConst p).fracWidth mb)) - m ∧
      resultMagnitude p (Int.log 2 m) (strValue (roundGuard (classConst p).fracWidth mb)) - m ≤ 0 ∧
      strValue (roundGuard (classConst p).fracWidth mb) % 2 = 0 := by
  have hf := (classConst_widths p).1
  have hge : -((1 : Nat) : Int) ≤ Int.log 2 m :=
    (one_div_two_pow_le_iff_le_log m 1 hm).1 (by simpa using hlow)
  have hneg := not_le.1 (mt (two_pow_le_iff_le_log m 0 hm).2 (by simpa using hhigh))
  have hlog : Int.log 2 m = -1 := by omega
  rw [hlog, fracDigits] at hlen
  have hlen' : mb.length = (classConst p).fracWidth := by omega
  rw [hlog, resultMagnitude_of_log_eq_neg_one p m mb hlen' hval]
  obtain ⟨herr, herr'⟩ := truncation_error_bounds p m hm.le
  exact ⟨rfl, herr, herr', even_strValue_roundGuard _ mb hf hlen'.le⟩

theorem result_of_lt_half (h : m < 1 / 2) :
    resultMagnitude p (Int.log 2 m) (strValue (roundGuard (classConst p).fracWidth mb)) =
        (⌊m * 2 ^ fracDigits p⌋₊ : ℚ) / 2 ^ fracDigits p ∧
      strValue (roundGuard (classConst p).fracWidth mb) % 2 = 0 := by
  have hf := (classConst_widths p).1
  have hlt := not_le.1 (mt (one_div_two_pow_le_iff_le_log m 1 hm).2 (by simpa using h))
  obtain ⟨n, hn⟩ : ∃ n : Nat, Int.log 2 m = -((n : Int) + 2) := ⟨(-Int.log 2 m - 2).toNat, by omega⟩
  rw [hn] at hlen ⊢
  have hlen' : mb.length + (n + 1) = (classConst p).fracWidth := by
    rw [fracDigits] at hlen
    omega
  exact ⟨resultMagnitude_of_log_lt_neg_one p m n mb hlen' hval, even_strValue_roundGuard _ mb hf (by omega)⟩

end

end Sys2Proof.Machine

open Sys2Proof Sys2Proof.Machine

/-- Settles O24: the response is the assembled string; its fraction field is the value of the guard-bit rule on the mantissa
bits below the first `'1'` of `floor(|v| * 2^N)`, worked out in each part of the range. -/
theorem okResultHasClosedForm : Obligations.OkResultHasClosedForm := by
  refine ⟨fun p sign c q s hc hleast hover => ?_,
    fun s => ⟨(runsTo_iff _ s _ _ _).2 (by decide), by norm_num [resultMagnitude, magnitude, ulp, classConst]⟩,
    fun s => ⟨(runsTo_iff _ s _ _ _).2 (by decide), by norm_num [resultMagnitude, magnitude, ulp, classConst]⟩⟩
  have hm := magnitude_pos c q hc
  have hbias := fracDigits_lt_bias p
  obtain ⟨biased, mb, hok, hbiased, hlt, hlen, hval⟩ := encodeClass_of_accepted p sign c q hleast hover
  have hfr := roundGuard_length (classConst p).fracWidth mb (classConst_widths p).1
  refine ⟨_, runsTo_instrOf_of_ok p sign c q s _ hok, ?_, signField_assembleOutput p sign biased _ hlt hfr, ?_, ?_, ?_⟩
  · rw [← encodeClass_ok_length p sign c q _ hok]
    exact vec80_toNat_lt _
  · rw [exponentField_assembleOutput p sign biased _ hlt hfr]
    exact hbiased
  · rintro rfl
    exact integerBit_assembleOutput sign biased _ hlt hfr (by omega)
  · rw [fractionField_assembleOutput p sign biased _ hlt hfr]
    exact ⟨result_of_one_le p _ mb hm hlen hval, result_of_half_le p _ mb hm hlen hval,
      result_of_lt_half p _ mb hm hlen hval⟩

end

section
/-! What a completion writes and what it leaves (60_exceptions.md rules R131, R133), and which of several errors is the one
reported (rule R132). -/

namespace Sys2Proof.Machine

/-- The precision check stops ENCODE before the operands are looked at (60_exceptions.md rule R132, first in the order). -/
theorem encodeFn_illegal (prec : BitVec 8) (sign : Bool) (c : Nat) (q : Int) (h : IllegalCode prec) :
    encodeFn prec sign c q = .error .cfgErr :=
  encodeOf_illegal { prec := prec, sign := sign, coeff := c, exp := q } h

/-- The test of 41_encoder.md rule R97: no `'1'` among the integer digits, none among the fraction digits. -/
theorem encodeClass_of_no_first_one (p : PrecClass) (sign : Bool) (c : Nat) (q : Int) (hc : 0 < c)
    (hint : magInt c q = 0) (hfrac : find1 (frac (magFrac c q) (magDen q) (fracDigits p)) = none) :
    encodeClass p sign c q = .error .rangeUnf := by
  have hzero : strValue (radix (magInt c q) ++ frac (magFrac c q) (magDen q) (fracDigits p)) = 0 := by
    rw [hint, radix_zero, List.nil_append, (find1_none_iff _).1 hfrac]
  rw [encodeClass_of_pos p sign c q hc, encodeDigits, locatePoint_of_strValue_eq_zero _ _ hzero]

/-- Past the zero check the only errors left are the two of the range. -/
theorem encodeClass_error_of_pos (p : PrecClass) (sign : Bool) (c : Nat) (q : Int) (x : ErrorClass) (hc : 0 < c)
    (h : encodeClass p sign c q = .error x) : x = .rangeUnf ∨ x = .rangeOvf := by
  obtain hlt | hleast := lt_or_ge (magnitude c q) (leastMagnitude p)
  · rw [encodeClass_of_lt_leastMagnitude p sign c q hc hlt] at h
    exact .inl (Except.error.inj h).symm
  obtain hover | hlow := le_or_gt (overflowMagnitude p) (magnitude c q)
  · rw [encodeClass_of_overflowMagnitude_le p sign c q hover] at h
    exact .inr (Except.error.inj h).symm
  · obtain ⟨str, hok⟩ := exists_encodeClass_ok p sign c q hleast hlow
    cases hok.symm.trans h

theorem leastMagnitude_le_overflowMagnitude (p : PrecClass) : leastMagnitude p ≤ overflowMagnitude p :=
  (leastMagnitude_le_one p).trans (one_le_overflowMagnitude p)

end Sys2Proof.Machine

open Sys2Proof Sys2Proof.Machine

/-- Settles O25: each check of ENCODE stops it before the next one; past the first two only the range errors are left, and no
magnitude is both below the least and from the overflow bound up. O21 has the zero check. -/
theorem firstErrorInPriorityWins : Obligations.FirstErrorInPriorityWins := by
  have h30 : IllegalCode 0x30#8 := by unfold IllegalCode; decide
  obtain ⟨-, -, hzero, -⟩ := spellingDoesNotChangeResponse
  refine ⟨encodeFn_illegal, ?_, fun p sign c q hc hint hfrac => ?_, fun p sign c q hc => ?_,
    encodeFn_illegal _ _ _ _ h30, encodeFn_illegal _ _ _ _ h30, hzero .p16 true 0⟩
  · rintro p sign c q rfl
    exact hzero p sign q
  · rw [encodeFn_classCode, encodeClass_of_no_first_one p sign c q hc hint hfrac]
  · rw [encodeFn_classCode]
    refine ⟨fun h => ?_, fun h => ?_, fun ⟨hover, hlt⟩ => ?_⟩
    · simpa using encodeClass_error_of_pos p sign c q _ hc h
    · simpa using encodeClass_error_of_pos p sign c q _ hc h
    · exact ((leastMagnitude_le_overflowMagnitude p).trans hover).not_gt hlt

/-- Settles O30: the response written is that of ENCODE's outcome; O13 has the completion of an illegal code. -/
theorem completionWritesResultRegisters : Obligations.CompletionWritesResultRegisters := by
  obtain ⟨-, hillegal⟩ := illegalCodeCompletesWithCfgErr
  refine ⟨fun i s x h => ?_, fun i s str h => ?_, hillegal⟩
  · rw [runsTo_iff, h]
    rfl
  · rw [runsTo_iff, h]
    rfl

/-- Settles O31: an instruction is a completion, which writes the result registers and `STATE` alone. -/
theorem execLeavesAllButResultRegisters : Obligations.ExecLeavesAllButResultRegisters := by
  intro i s t h
  rw [exec_eq, completeWith_eq] at h
  obtain rfl := Host.Outcome.next.inj h
  exact ⟨rfl, rfl, rfl, rfl, rfl, rfl⟩

end

section
/-! What one edge does once a reset has been seen, in the order of 70_reset_and_hazards.md rule R155, and the handshake
it obeys (rules R156, R158, R159). -/

namespace Sys2Proof.Machine

/-! ### The kinds of edge -/

theorem edgeKind_of_resetSeen (s : State) (hseen : s.resetSeen = true) :
    edgeKind s =
      if (sampled s).rst = true then .reset
      else if s.ctrl = .idle ∧ (sampled s).reqValid = true then .accept
      else if s.ctrl = .busy ∧ (sampled s).done = true then .complete
      else .hold := by
  simp [edgeKind, hseen]

/-- The cycle step of rule R155: once a reset has been seen every edge goes on. -/
theorem step_of_resetSeen (s : State) (hseen : s.resetSeen = true) :
    step s = .next (
      if (sampled s).rst = true then resetEdge s
      else if s.ctrl = .idle ∧ (sampled s).reqValid = true then acceptEdge s
      else if s.ctrl = .busy ∧ (sampled s).done = true then
        completeWith s.reqPrec (encodeOf (captured s)) (tick s)
      else tick s) := by
  have hkind := edgeKind_of_resetSeen s hseen
  split_ifs at hkind ⊢
  · exact step_of_reset s hkind
  · exact step_of_accept s hkind
  · exact step_of_complete s hkind
  · exact step_of_hold s hkind

/-- The same as four cases, each with what makes the edge that kind. -/
theorem step_cases_of_resetSeen (s : State) (hseen : s.resetSeen = true) :
    ((sampled s).rst = true ∧ step s = .next (resetEdge s)) ∨
    (AcceptsNext s ∧ step s = .next (acceptEdge s)) ∨
    (CompletesNext s ∧ step s = .next (completeWith s.reqPrec (encodeOf (captured s)) (tick s))) ∨
    (¬ AcceptsNext s ∧ step s = .next (tick s)) := by
  have hstep := step_of_resetSeen s hseen
  split_ifs at hstep with hrst haccept hcomplete
  · exact .inl ⟨hrst, hstep⟩
  · obtain ⟨hidle, hvalid⟩ := haccept
    exact .inr (.inl ⟨⟨hseen, hidle, Bool.eq_false_of_not_eq_true hrst, hvalid⟩, hstep⟩)
  · obtain ⟨hbusy, hdone⟩ := hcomplete
    exact .inr (.inr (.inl ⟨⟨hseen, hbusy, Bool.eq_false_of_not_eq_true hrst, hdone⟩, hstep⟩))
  · exact .inr (.inr (.inr ⟨fun ⟨_, hidle, _, hvalid⟩ => haccept ⟨hidle, hvalid⟩, hstep⟩))

/-! ### The handshake -/

theorem reqReady_eq_true_iff (s : State) : reqReady s = true ↔ s.ctrl = .idle ∧ (sampled s).rst = false := by
  simp [reqReady]

theorem reqReady_of_rst (s : State) (h : (sampled s).rst = true) : reqReady s = false := by
  simp [reqReady, h]

/-- Rule R156: a booted block accepts exactly when `req_valid` and `req_ready` are both 1. -/
theorem acceptsNext_iff (s : State) (hseen : s.resetSeen = true) :
    AcceptsNext s ↔ (sampled s).reqValid = true ∧ reqReady s = true := by
  rw [reqReady_eq_true_iff]
  exact ⟨fun ⟨_, hidle, hrst, hvalid⟩ => ⟨hvalid, hidle, hrst⟩,
    fun ⟨hvalid, hidle, hrst⟩ => ⟨hseen, hidle, hrst, hvalid⟩⟩

@[simp] theorem captured_completeWith (prec : BitVec 8) (r : Except ErrorClass BitStr) (s : State) :
    captured (completeWith prec r s) = captured s := by
  rw [completeWith_eq]; rfl

theorem step_of_acceptsNext (s : State) (h : AcceptsNext s) : step s = .next (acceptEdge s) :=
  step_of_accept s (edgeKind_of_acceptsNext s h)

theorem step_of_rst (s : State) (h : (sampled s).rst = true) : step s = .next (resetEdge s) :=
  step_of_reset s (edgeKind_of_rst s h)

/-- Of the edges that accept nothing, none takes the block from `IDLE` to `BUSY`, and only a reset touches the capture
registers. -/
theorem step_of_not_acceptsNext (s : State) (hseen : s.resetSeen = true) (hnot : ¬ AcceptsNext s) :
    ∃ t, step s = .next t ∧ ¬ (s.ctrl = .idle ∧ t.ctrl = .busy) ∧
      ((sampled s).rst = false → captured t = captured s) := by
  rcases step_cases_of_resetSeen s hseen with ⟨hrst, hstep⟩ | ⟨haccept, -⟩ | ⟨-, hstep⟩ | ⟨-, hstep⟩
  · exact ⟨_, hstep, by simp, by simp [hrst]⟩
  · exact absurd haccept hnot
  · exact ⟨_, hstep, by simp, fun _ => captured_completeWith _ _ _⟩
  · exact ⟨_, hstep, fun ⟨hidle, hbusy⟩ => by simp [hidle] at hbusy, fun _ => captured_tick s⟩

/-- A `BUSY` block reads two ports of an edge, `rst` and the draw `done`. -/
theorem step_of_busy (s : State) (hseen : s.resetSeen = true) (hbusy : s.ctrl = .busy) :
    step s = .next (
      if (sampled s).rst = true then resetEdge s
      else if (sampled s).done = true then completeWith s.reqPrec (encodeOf (captured s)) (tick s)
      else tick s) := by
  simp [step_of_resetSeen s hseen, hbusy]

/-! ### The cycle step register by register -/

theorem resetEdge_eq_of_resetSeen (s : State) (hseen : s.resetSeen = true) :
    resetEdge s =
      { s with ctrl := .idle, rspValid := false, rspStatus := 0#3, rspLen := 0#7, rspBits := 0#80,
               reqPrec := Config.freePrec s.draws, reqSign := Config.freeSign s.draws,
               reqCoeff := Config.freeCoeff s.draws, reqExp := Config.freeExp s.draws,
               draws := s.draws + 1, inputs := s.inputs.tail } := by
  rw [hseen]
  rfl

/-! ### The completing edge of an instruction -/

/-- A decoded instruction stands for the captured request, so the completing edge and `exec` both complete with ENCODE of
it. -/
theorem step_of_decode (s : State) (w : PortWidths) (b : RequestBits w) (i : Instr) (hcomplete : CompletesNext s)
    (hcaptured : captured s = assembleRequest w b) (hdecode : decode w b = .ok i) : step s = exec i (tick s) := by
  have hreq : encodeRequest i = captured s := (decodeRequest_ok_inv _ i hdecode).trans hcaptured.symm
  rw [step_of_complete s (edgeKind_of_completesNext s hcomplete), exec_eq, hreq]
  rfl

end Sys2Proof.Machine

open Sys2Proof Sys2Proof.Machine

/-- Settles O4: the four branches of the step are those of the rule, the completion with its two outcomes; the latency is
finite because `inputs` is. -/
theorem edgeFollowsCycleStep : Obligations.EdgeFollowsCycleStep := by
  refine ⟨fun s hseen => ?_, fun s hseen hbusy hnoReset => ?_⟩
  · rw [step_of_resetSeen s hseen]
    congr 1
    split_ifs
    · exact resetEdge_eq_of_resetSeen s hseen
    · rfl
    · change completeWith s.reqPrec (encodeFn s.reqPrec s.reqSign s.reqCoeff s.reqExp) (tick s) = _
      cases encodeFn s.reqPrec s.reqSign s.reqCoeff s.reqExp <;> rfl
    · rfl
  · refine ⟨_, runEdges_edgesToDone_of_busy s hseen hbusy hnoReset, completeWith_ctrl _ _ _, ?_⟩
    rw [completeWith_eq]

/-- Settles O33: an edge that neither accepts nor resets completes or holds, and a block with a response is not `BUSY`. -/
theorem responseHeldUntilAcceptanceOrReset : Obligations.ResponseHeldUntilAcceptanceOrReset := by
  intro s hseen hinv
  have hregs := hinv hseen
  refine ⟨fun hvalid hnot hrst => ?_, ?_, hregs.clearedWhileInvalid⟩
  · rcases step_cases_of_resetSeen s hseen with ⟨hreset, -⟩ | ⟨haccept, -⟩ | ⟨hcomplete, -⟩ | ⟨-, hstep⟩
    · simp [hrst] at hreset
    · exact absurd haccept hnot
    · obtain ⟨-, hbusy, -, -⟩ := hcomplete
      simp [hregs.invalidWhileBusy hbusy] at hvalid
    · exact ⟨_, hstep, shownResponse_tick s⟩
  · rintro (haccept | hrst)
    · exact ⟨_, step_of_acceptsNext s haccept, shownResponse_acceptEdge s⟩
    · exact ⟨_, step_of_rst s hrst, shownResponse_resetEdge s⟩

/-- Settles O34: `req_valid = req_ready = 1` is the accepting edge, which captures the live fields. -/
theorem acceptedExactlyWhenValidAndReady : Obligations.AcceptedExactlyWhenValidAndReady := by
  intro s hseen
  have hiff := acceptsNext_iff s hseen
  by_cases haccept : AcceptsNext s
  · have ⟨_, hidle, _, _⟩ := haccept
    exact ⟨_, step_of_acceptsNext s haccept, iff_of_true ⟨hidle, rfl⟩ (hiff.1 haccept),
      fun _ _ => captured_acceptEdge s, fun h => absurd (hiff.1 haccept) h⟩
  · have hnot := mt hiff.2 haccept
    obtain ⟨t, hstep, hstays, hcapture⟩ := step_of_not_acceptsNext s hseen haccept
    exact ⟨t, hstep, iff_of_false hstays hnot, fun hvalid hready => absurd ⟨hvalid, hready⟩ hnot,
      fun _ => hcapture⟩

/-- Settles O5: the port bits of a well-formed instruction decode to it (O10), so the second clause is the first. -/
theorem completingStepRunsDecodedInstr : Obligations.CompletingStepRunsDecodedInstr :=
  ⟨step_of_decode, fun s w i hcomplete hwf hcaptured =>
    step_of_decode s w (encode w i) i hcomplete hcaptured (decodeOfEncodeIsInstr w i hwf)⟩

/-- Settles O36: a `BUSY` block reads only `rst` and `done`. -/
theorem portChangesWhileBusyHaveNoEffect : Obligations.PortChangesWhileBusyHaveNoEffect := by
  refine ⟨fun s e e' rest hseen hbusy hrst hdone => ?_, fun s haccept => ?_⟩
  · rw [step_of_busy { s with inputs := e :: rest } hseen hbusy,
      step_of_busy { s with inputs := e' :: rest } hseen hbusy]
    simp only [sampled, List.headD_cons, hrst, hdone]
    rfl
  · exact ⟨_, step_of_acceptsNext s haccept, rfl, captured_acceptEdge s⟩

end

section
/-! The block before its first reset edge and after a reset edge (70_reset_and_hazards.md rules R151, R152, R154). -/

namespace Sys2Proof.Machine

/-! ### Before the first reset edge -/

/-- Without `rst` and without a request it does not matter whether a reset has been seen. -/
theorem edgeKind_of_no_request (s : State) (hrst : (sampled s).rst = false) (hvalid : (sampled s).reqValid = false) :
    edgeKind s = if s.ctrl = .busy ∧ (sampled s).done = true then .complete else .hold := by
  simp [edgeKind, hrst, hvalid]

theorem edgeKind_of_request_before_reset (s : State) (hseen : s.resetSeen = false) (hrst : (sampled s).rst = false)
    (hvalid : (sampled s).reqValid = true) : edgeKind s = .unbooted := by
  simp [edgeKind, hseen, hrst, hvalid]

theorem step_of_no_request (s : State) (hrst : (sampled s).rst = false) (hvalid : (sampled s).reqValid = false) :
    ∃ t, step s = .next t ∧ t.resetSeen = s.resetSeen := by
  have hkind := edgeKind_of_no_request s hrst hvalid
  split_ifs at hkind
  · exact ⟨_, step_of_complete s hkind, by simp⟩
  · exact ⟨_, step_of_hold s hkind, rfl⟩

/-! ### No response without a request -/

/-- A booted block with no request in flight and no response to show (70_reset_and_hazards.md rule R152). -/
structure IdleAndSilent (s : State) : Prop where
  resetSeen : s.resetSeen = true
  idle : s.ctrl = .idle
  silent : shownResponse s = (false, clearedResponse)

theorem idleAndSilent_resetEdge (s : State) : IdleAndSilent (resetEdge s) := ⟨rfl, rfl, rfl⟩

theorem idleAndSilent_tick (s : State) (h : IdleAndSilent s) : IdleAndSilent (tick s) :=
  ⟨h.resetSeen, h.idle, h.silent⟩

/-- Only a request ends the silence of an idle block. -/
theorem step_keeps_idleAndSilent (s : State) (h : IdleAndSilent s) (hvalid : (sampled s).reqValid = false) :
    ∃ t, step s = .next t ∧ IdleAndSilent t := by
  rcases step_cases_of_resetSeen s h.resetSeen with ⟨-, hstep⟩ | ⟨haccept, -⟩ | ⟨hcomplete, -⟩ | ⟨-, hstep⟩
  · exact ⟨_, hstep, idleAndSilent_resetEdge s⟩
  · obtain ⟨-, -, -, hpresented⟩ := haccept
    simp [hvalid] at hpresented
  · obtain ⟨-, hbusy, -, -⟩ := hcomplete
    simp [h.idle] at hbusy
  · exact ⟨_, hstep, idleAndSilent_tick s h⟩

theorem noRequestWithin_sampled (n : Nat) (s : State) (h : NoRequestWithin (n + 1) s.inputs) :
    (sampled s).reqValid = false := by
  unfold sampled
  cases hi : s.inputs with
  | nil => rfl
  | cons e es => exact h e (by simp [hi])

theorem noRequestWithin_tail (n : Nat) (es : List EdgeInput) (h : NoRequestWithin (n + 1) es) :
    NoRequestWithin n es.tail := by
  cases es with
  | nil => simp [NoRequestWithin]
  | cons e es => exact fun e' he' => h e' (List.mem_cons_of_mem e he')

theorem runEdges_keeps_idleAndSilent (n : Nat) (s : State) (h : IdleAndSilent s) (hnone : NoRequestWithin n s.inputs) :
    ∃ t, runEdges n s = .next t ∧ IdleAndSilent t := by
  induction n generalizing s with
  | zero => exact ⟨s, rfl, h⟩
  | succ n ih =>
    obtain ⟨t, hstep, ht⟩ := step_keeps_idleAndSilent s h (noRequestWithin_sampled n s hnone)
    have hrest : NoRequestWithin n t.inputs := by
      rw [step_next_inputs s t hstep]
      exact noRequestWithin_tail n s.inputs hnone
    rw [runEdges_succ n s t hstep]
    exact ih t ht hrest

end Sys2Proof.Machine

open Sys2Proof.Machine

/-- Settles O2: the reset edge needs nothing of the state, and leaves an idle block that has been reset. -/
theorem resetEdgeSetsRegisters : Obligations.ResetEdgeSetsRegisters := by
  intro s hrst
  refine ⟨reqReady_of_rst s hrst, resetEdge s, step_of_rst s hrst, rfl, rfl, rfl, rfl, rfl, rfl, rfl, rfl,
    fun hrst' => ?_⟩
  refine ⟨(reqReady_eq_true_iff _).2 ⟨rfl, hrst'⟩, fun hvalid => ?_⟩
  have haccept : AcceptsNext (resetEdge s) := ⟨rfl, rfl, hrst', hvalid⟩
  exact ⟨_, step_of_acceptsNext _ haccept, rfl, rfl⟩

/-- Settles O3: the reset edge leaves the block idle and silent, and only a request ends that. -/
theorem resetAbortsRequestSilently : Obligations.ResetAbortsRequestSilently := by
  intro s n hrst hnone
  obtain ⟨t, hrun, ht⟩ := runEdges_keeps_idleAndSilent n (resetEdge s) (idleAndSilent_resetEdge s) hnone
  exact ⟨t, (runEdges_succ n s _ (step_of_rst s hrst)).trans hrun, ht.idle, ht.silent⟩

/-- Settles O6: the edges of an unbooted block are refused, reset, or leave it unbooted. -/
theorem requestBeforeFirstResetIsRefused : Obligations.RequestBeforeFirstResetIsRefused := by
  intro s hunseen
  refine ⟨fun hrst hvalid => ?_, fun hrst => ?_, fun hrst hvalid => ?_⟩
  · exact step_of_unbooted s (edgeKind_of_request_before_reset s hunseen hrst hvalid)
  · exact ⟨_, step_of_rst s hrst, rfl, resultRegsOk_of_cleared _ (shownResponse_resetEdge s)⟩
  · simpa [hunseen] using step_of_no_request s hrst hvalid

end

section
/-! The edges between the acceptance of a request and its completion (70_reset_and_hazards.md rules R161, R162). -/

namespace Sys2Proof.Machine

/-- Before its latency is over a `BUSY` block that is not reset only uses up inputs. -/
theorem runEdges_of_lt_edgesToDone (k : Nat) (s : State) (hseen : s.resetSeen = true) (hbusy : s.ctrl = .busy)
    (hnoReset : NoResetWithin (edgesToDone s.inputs) s.inputs) (hk : k < edgesToDone s.inputs) :
    runEdges k s = .next { s with inputs := s.inputs.drop k } := by
  induction k generalizing s with
  | zero => rfl
  | succ k ih =>
    obtain ⟨n, hn⟩ := Nat.exists_eq_succ_of_ne_zero (edgesToDone_pos s.inputs).ne'
    rw [hn] at hnoReset hk
    have hrst := noResetWithin_sampled n s hnoReset
    rw [edgesToDone_eq] at hn
    cases hdone : (sampled s).done with
    | true =>
      simp [hdone] at hn
      omega
    | false =>
      have hn' : edgesToDone s.inputs.tail = n := by simpa [hdone] using hn
      rw [runEdges_succ k s _ (step_of_hold s (edgeKind_of_busy_not_done s hseen hbusy hrst hdone)),
        ih (tick s) hseen hbusy (by rw [tick_inputs, hn']; exact noResetWithin_tail n s.inputs hnoReset)
          (by rw [tick_inputs, hn']; omega), ← List.drop_tail]
      rfl

end Sys2Proof.Machine

open Sys2Proof.Machine

/-- Settles O37: the accepting edge, then the edges before the latency is over, then the completing one. -/
theorem acceptedRequestCompletes : Obligations.AcceptedRequestCompletes := by
  intro s haccept hnoReset
  have hseen : (acceptEdge s).resetSeen = true := haccept.1
  have hrun (k : Nat) : runEdges (k + 1) s = runEdges k (acceptEdge s) :=
    runEdges_succ k s _ (step_of_acceptsNext s haccept)
  refine ⟨edgesToDone_pos _, fun k h1 hk => ?_, ?_⟩
  · obtain ⟨k, rfl⟩ := Nat.exists_eq_add_of_le' h1
    exact ⟨_, (hrun k).trans (runEdges_of_lt_edgesToDone k (acceptEdge s) hseen rfl hnoReset hk), rfl, rfl, rfl⟩
  · exact ⟨_, (hrun _).trans (runEdges_edgesToDone_of_busy (acceptEdge s) hseen rfl hnoReset),
      completeWith_ctrl _ _ _, shownResponse_completeWith _ _ _⟩

end
